-- ==== Sys2Proof/Word.lean ====
section
/-! DEFINITION. The word types of the machine and the one narrowing of exact integers to words
(spec/00_scope.md R9). -/

namespace Sys2Proof

/-- A 32-bit two's-complement word: general registers, I/O registers, data memory, disk (R9). -/
abbrev Word := BitVec 32

/-- One 48-bit instruction word, a location of instruction memory (R90). -/
abbrev InstrWord := BitVec 48

/-- One framebuffer cell (R56). -/
abbrev Byte := BitVec 8

/-- A general register number, 0 to 15 (R20, R93). -/
abbrev RegIdx := BitVec 4

/-- The 12-bit program counter's values (R25). -/
abbrev PcAddr := BitVec 12

/-- An I/O register number, 0 to 22 (R27). -/
abbrev IoIdx := Fin 23

/-- `wrap32(n)`: the word whose unsigned value is `n mod 2^32` (R9). -/
def wrap32 (n : Int) : Word := BitVec.ofInt 32 n

end Sys2Proof
end

