-- ==== Sys2Proof/Syntax.lean ====
section
/-! DEFINITION. The instruction set as syntax: the seven fields of the one format (spec/30_encoding.md R91) and one
constructor per row of the opcode table (R96). -/

namespace Sys2Proof

/-- The six operand fields of format F48 (R91). Every instruction has all six, those its operation ignores too
(R92). The immediates are the signed values of R94, in -2048 to 2047 (`Instr.wf` checks it). -/
structure Fields where
  rd : RegIdx
  rs : RegIdx
  rt : RegIdx
  rm : RegIdx
  imm1 : Int
  imm2 : Int
  deriving DecidableEq, Repr

/-- The 22 instructions (R96). `input` and `output` are the table's `in` and `out`. -/
inductive Instr where
  | add (f : Fields)
  | sub (f : Fields)
  | mac (f : Fields)
  | and (f : Fields)
  | or (f : Fields)
  | xor (f : Fields)
  | sll (f : Fields)
  | sra (f : Fields)
  | srl (f : Fields)
  | beq (f : Fields)
  | bne (f : Fields)
  | blt (f : Fields)
  | bgt (f : Fields)
  | ble (f : Fields)
  | bge (f : Fields)
  | jal (f : Fields)
  | lw (f : Fields)
  | sw (f : Fields)
  | reti (f : Fields)
  | input (f : Fields)
  | output (f : Fields)
  | halt (f : Fields)
  deriving DecidableEq, Repr

/-- The operand fields of an instruction. -/
def Instr.fields : Instr → Fields
  | .add f | .sub f | .mac f | .and f | .or f | .xor f | .sll f | .sra f | .srl f
  | .beq f | .bne f | .blt f | .bgt f | .ble f | .bge f | .jal f | .lw f | .sw f
  | .reti f | .input f | .output f | .halt f => f

end Sys2Proof
end

