-- ==== Sys2Proof/Decode.lean ====
section
/-! DEFINITION. The decoder and the encoder of the one 48-bit format (spec/30_encoding.md R90 to R102), and the
immediates' sign extension. Bit numbers are those of R91 (the spec's naming of digit positions, its decision D1). -/

namespace Sys2Proof

/-- Why a word is no instruction: its opcode is 22 to 255 (R98). -/
inductive DecodeError where
  | unknownOpcode (opcode : BitVec 8)
  deriving DecidableEq, Repr

/-- `sext_12` (R10, R94). -/
def sext12 (v : BitVec 12) : Word := v.signExtend 32

/-- Bits 47:40 (R91, R95). -/
def opcodeOf (w : InstrWord) : BitVec 8 := w.extractLsb' 40 8

/-- Bits 39:36. -/
def rdOf (w : InstrWord) : RegIdx := w.extractLsb' 36 4

/-- Bits 35:32. -/
def rsOf (w : InstrWord) : RegIdx := w.extractLsb' 32 4

/-- Bits 31:28. -/
def rtOf (w : InstrWord) : RegIdx := w.extractLsb' 28 4

/-- Bits 27:24. -/
def rmOf (w : InstrWord) : RegIdx := w.extractLsb' 24 4

/-- Bits 23:12. -/
def imm1Of (w : InstrWord) : BitVec 12 := w.extractLsb' 12 12

/-- Bits 11:0. -/
def imm2Of (w : InstrWord) : BitVec 12 := w.extractLsb' 0 12

/-- The operand fields of a word, the immediates read as signed 12-bit values (R91, R94). -/
def fieldsOf (w : InstrWord) : Fields :=
  { rd := rdOf w, rs := rsOf w, rt := rtOf w, rm := rmOf w,
    imm1 := (imm1Of w).toInt, imm2 := (imm2Of w).toInt }

/-- The opcode map (R96), from the unsigned opcode and the fields. The numbering is the spec's decision D2. -/
def instrOfOpcode (opcode : Nat) (f : Fields) : Option Instr :=
  match opcode with
  | 0 => some (.add f)
  | 1 => some (.sub f)
  | 2 => some (.mac f)
  | 3 => some (.and f)
  | 4 => some (.or f)
  | 5 => some (.xor f)
  | 6 => some (.sll f)
  | 7 => some (.sra f)
  | 8 => some (.srl f)
  | 9 => some (.beq f)
  | 10 => some (.bne f)
  | 11 => some (.blt f)
  | 12 => some (.bgt f)
  | 13 => some (.ble f)
  | 14 => some (.bge f)
  | 15 => some (.jal f)
  | 16 => some (.lw f)
  | 17 => some (.sw f)
  | 18 => some (.reti f)
  | 19 => some (.input f)
  | 20 => some (.output f)
  | 21 => some (.halt f)
  | _ => none

/-- The decoder: total on every 48-bit word. The opcode field alone selects the instruction (R96); an opcode of 22
or more is rejected by name (R98), and the step then runs R128. -/
def decode (w : InstrWord) : Except DecodeError Instr :=
  match instrOfOpcode (opcodeOf w).toNat (fieldsOf w) with
  | some i => .ok i
  | none => .error (.unknownOpcode (opcodeOf w))

/-- The opcode of an instruction (R96). -/
def Instr.opcode : Instr → BitVec 8
  | .add _ => 0x00#8
  | .sub _ => 0x01#8
  | .mac _ => 0x02#8
  | .and _ => 0x03#8
  | .or _ => 0x04#8
  | .xor _ => 0x05#8
  | .sll _ => 0x06#8
  | .sra _ => 0x07#8
  | .srl _ => 0x08#8
  | .beq _ => 0x09#8
  | .bne _ => 0x0A#8
  | .blt _ => 0x0B#8
  | .bgt _ => 0x0C#8
  | .ble _ => 0x0D#8
  | .bge _ => 0x0E#8
  | .jal _ => 0x0F#8
  | .lw _ => 0x10#8
  | .sw _ => 0x11#8
  | .reti _ => 0x12#8
  | .input _ => 0x13#8
  | .output _ => 0x14#8
  | .halt _ => 0x15#8

/-- The encoding function of R102: the fields side by side, opcode leftmost, each immediate reduced modulo 4096. -/
def encodeFields (opcode : BitVec 8) (f : Fields) : InstrWord :=
  opcode ++ f.rd ++ f.rs ++ f.rt ++ f.rm ++ BitVec.ofInt 12 f.imm1 ++ BitVec.ofInt 12 f.imm2

/-- The word of an instruction (R102). -/
def encode (i : Instr) : InstrWord := encodeFields i.opcode i.fields

/-- The instruction word whose bits are `w`, numbered as the opcode table numbers them, of which only the low
`nbits` are given (the others are 0). -/
def tableWord (nbits w : Nat) : InstrWord := BitVec.ofNat 48 (w % 2 ^ nbits)

/-- What the decoder reads from an instruction of the opcode table. The hardware stores the 48 bits as one
location of instruction memory, without a byte order (R62, R90). -/
def decodeTableWord (nbits w : Nat) : Option Instr :=
  match decode (tableWord nbits w) with
  | .ok i => some i
  | .error _ => none

end Sys2Proof
end

