-- ==== Sys2Proof/Config.lean ====
section
/-! DEFINITION. What is fixed for a run: the fixed parameters of the hardware (spec/00_scope.md R5), its open
parameters (R6) and the one free value (SHIFT_NEG). -/

namespace Sys2Proof

/-- The open parameters of R6 that are plain data. They are carried in the state so that every statement holds
for all of their values; no stage writes them (R58). Log entries 2, 3 and 4. -/
structure Config where
  /-- DMEM_WORDS: the number of words of data memory. -/
  dmemWords : Nat
  /-- TIMER_MATCH_GATED: whether the timer compare of R230 is made only while the timer is enabled. -/
  timerMatchGated : Bool
  /-- IRQ2_SCHEDULE: the cycle numbers in which the external interrupt line pulses, ascending (R235). -/
  irq2Schedule : List Nat
  deriving DecidableEq, Repr

/-- The defaults of R6. The 4096 is PRESUMED (unsafe: R6 marks it as general knowledge; log entry 2). -/
def Config.initial : Config :=
  { dmemWords := 4096, timerMatchGated := false, irq2Schedule := [] }

/-- The three shift instructions, as an argument of the free value below. -/
inductive ShiftKind where
  | sll
  | sra
  | srl
  deriving DecidableEq, Repr

/-- SHIFT_NEG (R6, R147): the result of a shift by a negative amount, from the shift, the value shifted and the
amount. A FREE VALUE: the spec gives no result, and nothing constrains this constant. DESIGN CHOICE (safe; log
entry 5). -/
opaque Config.shiftNeg : ShiftKind → Word → Word → Word

/-- IMEM_LINES: locations of instruction memory (R5). -/
def imemLines : Nat := 4096

/-- SECTOR_WORDS: words of one disk sector (R5). -/
def sectorWords : Nat := 128

/-- DISK_SECTORS: sectors of the disk (R5). -/
def diskSectors : Nat := 128

/-- DISK_WORDS: words of the disk (R5). -/
def diskWords : Nat := diskSectors * sectorWords

/-- DISK_LATENCY: cycles from the acceptance of a disk command to its completion (R5, R243). -/
def diskLatency : Nat := 1024

/-- FB_CELLS: cells of the monitor framebuffer (R5). -/
def fbCells : Nat := 65536

end Sys2Proof
end

