-- ==== Sys2Proof/Machine/State.lean ====
section
/-! DEFINITION. The whole machine state (spec/10_state.md R20 to R57) as plain data, its value after reset
(spec/70_reset_and_hazards.md R270), and the reasons a step can stop. -/

namespace Sys2Proof.Machine

/-- One address space: its cells as (address, value) pairs in canonical form (`Memory.wf`). An unlisted address
reads 0 (`Memory.read`). The cell is the space's own unit: 48 bits, 32 bits or 8 bits (R60, R62); for the
framebuffer a pair is a `Host.Cell`. DESIGN CHOICE (safe; log entry 6). -/
abbrev Memory (w : Nat) := List (Nat × BitVec w)

/-- Direction of a hardware access: `in` reads, `out` writes (R263). -/
inductive Direction where
  | read
  | write
  deriving DecidableEq, Repr

/-- What leaves the block on its output ports in a cycle (spec/00_scope.md R8; log entry 8). -/
inductive Event where
  /-- `DiagNegativeAddress(S)`: an effective address or I/O index below 0 (R211). -/
  | diagNegativeAddress (sum : Int)
  /-- `DiagUnknownOpcode(opcode)`: an opcode of 22 to 255 (R212). -/
  | diagUnknownOpcode (opcode : BitVec 8)
  /-- The hardware-access event of `in` and `out` (R195, R199, R263). -/
  | hwAccess (cycle : Nat) (index : IoIdx) (direction : Direction) (value : Word)
  /-- The trace record: the pc after S2, the raw instruction, R0 to R15 before the reload (R262). -/
  | trace (pc : PcAddr) (instr : InstrWord) (regs : Vector Word 16)
  /-- The LED register changed in this cycle (R258). -/
  | leds (cycle : Nat) (value : Word)
  /-- The 7-segment register changed in this cycle (R258). -/
  | display7seg (cycle : Nat) (value : Word)
  /-- The monitor's write strobe: cell and data (R8, R255). -/
  | monitorWrite (cell : Nat) (data : Byte)
  deriving DecidableEq, Repr

/-- The machine (R57). Fields not documented otherwise are named as in the spec. -/
structure State where
  /-- `x[0..15]` (R20). Slot 0 is never read nor written: `readReg`, `writeReg` (R21). -/
  regs : Vector Word 16
  /-- The program counter (R25). -/
  pc : PcAddr
  /-- `io[0..22]` (R27). -/
  io : Vector Word 23
  /-- `in_service`, the in-service latch (R46). -/
  inService : Bool
  /-- `disk_busy`: a transfer is in flight (R47). -/
  diskBusy : Bool
  /-- `disk_done`: the completion cycle of the transfer in flight (R48). -/
  diskDone : Nat
  /-- The number of cycles completed since reset (R49). -/
  cycle : Nat
  /-- `pc_set`, transient: cleared at the start of every cycle (R50, R123). -/
  pcSet : Bool
  /-- The halt flag (R51). -/
  halted : Bool
  /-- `sched_idx`: index of the next entry of IRQ2_SCHEDULE (R52). -/
  schedIdx : Nat
  /-- Instruction memory, 4096 locations (R53). -/
  imem : Memory 48
  /-- Data memory, `cfg.dmemWords` words (R54). -/
  dmem : Memory 32
  /-- Disk storage, 16384 words (R55). -/
  disk : Memory 32
  /-- Monitor framebuffer, 65536 cells (R56). -/
  fb : Memory 8
  /-- The open parameters (R6, R58). -/
  cfg : Config
  /-- The MODEL's own field: the events of the cycle, emptied in stage S0 (R120). Log entry 8. -/
  events : List Event
  deriving DecidableEq, Repr

/-- Why a step stops. All are conditions for which the spec asks the model to stop (R213), or the stopped machine. -/
inductive Fault where
  /-- Raised by `lw`, `sw`, `in`, `out` when `rs + rt` is below -2^31 (R65). Safe. -/
  | effectiveAddressOverflow
  /-- Raised by `lw`, `sw` at or above DMEM_WORDS and by `in`, `out` above 22 (R65, R67). Safe. -/
  | addressOutOfRange
  /-- Raised by stage S7 when it would accept a command with its sector or buffer out of range (R244). Safe. -/
  | diskRange
  /-- Raised by stage S6 when `monitorcmd = 1` and `monitoraddr > 65535` (R255). Safe. -/
  | monitorRange
  /-- Raised by a step from a halted state: no further cycle runs (R133, U12). Safe. -/
  | stopped
  deriving DecidableEq, Repr

/-- Why an instruction has no meaning. -/
inductive Refusal where
  /-- Raised by an arm of `exec` that has no meaning yet; no arm is left so. Safe. -/
  | notModelled (mnemonic : String)
  deriving DecidableEq, Repr

/-- The machine right after reset (R270), with the default parameters and nothing loaded. The values are the
spec's own decision D13 (log entry 1); the empty event list is the model's (log entry 8). -/
def State.reset : State where
  regs := Vector.replicate 16 0#32
  pc := 0#12
  io := Vector.replicate 23 0#32
  inService := false
  diskBusy := false
  diskDone := 0
  cycle := 0
  pcSet := false
  halted := false
  schedIdx := 0
  imem := []
  dmem := []
  disk := []
  fb := []
  cfg := Config.initial
  events := []

end Sys2Proof.Machine
end

