-- ==== Sys2Proof/Machine/Ops.lean ====
section
/-! DEFINITION. The named operations over memory, registers and the I/O bank, taking an interrupt and returning
from one. Every stage and every instruction is written over these. -/

namespace Sys2Proof.Machine

/-- The three outcomes of a step or of an instruction. -/
abbrev Result := Host.Outcome State Fault Refusal

/-- Go on with `k` after an outcome that goes on; a fault or a refusal ends it. -/
def andThen {α β : Type} (o : Host.Outcome α Fault Refusal) (k : α → Host.Outcome β Fault Refusal) :
    Host.Outcome β Fault Refusal :=
  match o with
  | .next s => k s
  | .fault r => .fault r
  | .refused r => .refused r

/-! ### Memory -/

/-- The cell at `a`. An unlisted address reads 0: the value of a location that no launch image covers (R272,
decision D25; R56 for the framebuffer). Log entry 7. -/
def Memory.read {w : Nat} (m : Memory w) (a : Nat) : BitVec w :=
  match m with
  | [] => 0#w
  | (k, v) :: rest => if k = a then v else Memory.read rest a

/-- Put a pair before the first greater address. -/
def Memory.insert {w : Nat} (m : Memory w) (a : Nat) (v : BitVec w) : Memory w :=
  match m with
  | [] => [(a, v)]
  | (k, u) :: rest => if a < k then (a, v) :: (k, u) :: rest else (k, u) :: Memory.insert rest a v

/-- Take out every pair of an address. -/
def Memory.erase {w : Nat} (m : Memory w) (a : Nat) : Memory w :=
  match m with
  | [] => []
  | (k, u) :: rest => if k = a then Memory.erase rest a else (k, u) :: Memory.erase rest a

/-- Set the cell at `a`. Writing 0, what an unlisted address reads as, leaves no pair. -/
def Memory.write {w : Nat} (m : Memory w) (a : Nat) (v : BitVec w) : Memory w :=
  if v = 0#w then Memory.erase m a else Memory.insert (Memory.erase m a) a v

/-- The canonical form from address `low` on: addresses strictly rising, below `limit`, and no pair holding 0. -/
def Memory.wfFrom {w : Nat} (low limit : Nat) (m : Memory w) : Bool :=
  match m with
  | [] => true
  | (k, v) :: rest => decide (low ≤ k) && decide (k < limit) && decide (v ≠ 0#w) && Memory.wfFrom (k + 1) limit rest

/-- The one canonical form of an address space with addresses 0 to `limit - 1`. -/
def Memory.wf {w : Nat} (limit : Nat) (m : Memory w) : Bool := Memory.wfFrom 0 limit m

/-- Copy `n` cells of `src` from `a` on into `dst` from `b` on, in ascending order (R70). -/
def Memory.copy {w : Nat} (src dst : Memory w) (a b : Nat) : Nat → Memory w
  | 0 => dst
  | n + 1 => Memory.write (Memory.copy src dst a b n) (b + n) (Memory.read src (a + n))

/-- `ImemRead(pc)` (R61, R124): the 48-bit content of the location the pc names. -/
def fetchWord (s : State) : InstrWord := Memory.read s.imem s.pc.toNat

/-- `MemRead(a, 1)` (R64). -/
def readData (s : State) (a : Nat) : Word := Memory.read s.dmem a

/-- `MemWrite(a, 1, v)` (R64). -/
def writeData (s : State) (a : Nat) (v : Word) : State := { s with dmem := Memory.write s.dmem a v }

/-! ### General registers -/

/-- `x[r]` (R10): R0 reads 0 (R21). -/
def readReg (s : State) (r : RegIdx) : Word :=
  if r = 0#4 then 0#32 else s.regs[r.toNat]'(r.isLt)

/-- `x[r] <- v` (R10): a write to R0 is discarded (R21). -/
def writeReg (s : State) (r : RegIdx) (v : Word) : State :=
  { s with regs := if r = 0#4 then s.regs else s.regs.set r.toNat v r.isLt }

/-! ### The I/O register bank -/

/-- The numbers of the I/O registers that a hardware stage reads or writes (R27, the spec's decision D3). -/
def irq0enable : IoIdx := 0
/-- I/O register 1 (R28). -/
def irq1enable : IoIdx := 1
/-- I/O register 2 (R28). -/
def irq2enable : IoIdx := 2
/-- I/O register 3 (R29). -/
def irq0status : IoIdx := 3
/-- I/O register 4 (R30). -/
def irq1status : IoIdx := 4
/-- I/O register 5 (R31). -/
def irq2status : IoIdx := 5
/-- I/O register 6 (R32). -/
def irqhandler : IoIdx := 6
/-- I/O register 7 (R33). -/
def irqreturn : IoIdx := 7
/-- I/O register 8 (R34). -/
def clks : IoIdx := 8
/-- I/O register 9 (R35). -/
def leds : IoIdx := 9
/-- I/O register 10 (R36). -/
def display7seg : IoIdx := 10
/-- I/O register 11 (R37). -/
def timerenable : IoIdx := 11
/-- I/O register 12 (R38). -/
def timercurrent : IoIdx := 12
/-- I/O register 13 (R39). -/
def timermax : IoIdx := 13
/-- I/O register 14 (R40). -/
def diskcmd : IoIdx := 14
/-- I/O register 15 (R41). -/
def disksector : IoIdx := 15
/-- I/O register 16 (R42). -/
def diskbuffer : IoIdx := 16
/-- I/O register 17 (R43). -/
def diskstatus : IoIdx := 17
/-- I/O register 18 (R44): plain storage, no hardware stage uses it. -/
def reserved0 : IoIdx := 18
/-- I/O register 19 (R44): plain storage, no hardware stage uses it. -/
def reserved1 : IoIdx := 19
/-- I/O register 20 (R45). -/
def monitoraddr : IoIdx := 20
/-- I/O register 21 (R45). -/
def monitordata : IoIdx := 21
/-- I/O register 22 (R45). -/
def monitorcmd : IoIdx := 22

/-- `IoRead(n)` (R68): the full word, no side effect. -/
def readIo (s : State) (n : IoIdx) : Word := s.io[n.val]'n.isLt

/-- `IoWrite(n, v)` (R68): exactly the effect of storing the word. -/
def writeIo (s : State) (n : IoIdx) (v : Word) : State := { s with io := s.io.set n.val v n.isLt }

/-! ### The program counter -/

/-- The low 12 bits of a word, an instruction address (R160, R191, R222). -/
def low12 (v : Word) : PcAddr := v.extractLsb' 0 12

/-- `zext_12` (R10). -/
def zext12 (a : PcAddr) : Word := a.setWidth 32

/-- Set the pc and `pc_set`, so that stage S9 does not advance it (R50, R160). -/
def jumpTo (s : State) (target : PcAddr) : State := { s with pc := target, pcSet := true }

/-! ### Output events -/

/-- Add an event to the events of this cycle. -/
def emit (s : State) (e : Event) : State := { s with events := s.events ++ [e] }

/-! ### Taking an interrupt and returning from one -/

/-- Interrupt entry (R222): `irqreturn` takes the pc, the pc goes to the low 12 bits of `irqhandler`, the
in-service latch is set. Nothing else is saved, and `pc_set` is not set (the spec's decision D15). -/
def enterInterrupt (s : State) : State :=
  { writeIo s irqreturn (zext12 s.pc) with pc := low12 (readIo s irqhandler), inService := true }

/-- Return from interrupt (R191): the pc takes the low 12 bits of `irqreturn`, the latch is cleared, `pc_set` is
set. Nothing else is restored. -/
def returnFromInterrupt (s : State) : State :=
  { jumpTo s (low12 (readIo s irqreturn)) with inService := false }

end Sys2Proof.Machine
end

