-- ==== Sys2Proof/Machine/Operands.lean ====
section
/-! DEFINITION. How an instruction's operands are formed: the signed readings of registers, the effective address
and its classification (spec/20_memory.md R65), the arithmetic of the ALU (spec/41_alu.md) and the writing of a
result. -/

namespace Sys2Proof.Machine

/-- `s(x[r])`: the signed reading of a register (R9). -/
abbrev signedReg (s : State) (r : RegIdx) : Int := (readReg s r).toInt

/-- Write a result to `x[rd]` and go on (R140). -/
def writeResult (s : State) (rd : RegIdx) (v : Word) : Result := .next (writeReg s rd v)

/-! ### Addresses -/

/-- `S = s(x[rs]) + s(x[rt])`, as an exact integer (R65, R180). -/
def effectiveAddress (f : Fields) (s : State) : Int := signedReg s f.rs + signedReg s f.rt

/-- The four outcomes of the address check of R65 for addresses 0 to `limit - 1`. -/
inductive AddressClass (limit : Nat) where
  /-- Below -2^31. -/
  | overflow
  /-- From -2^31 to -1. -/
  | negative
  /-- An address of the space. -/
  | inRange (a : Fin limit)
  /-- At or above `limit`. -/
  | outOfRange
  deriving DecidableEq, Repr

/-- The classification of R65, in its order. -/
def classify (limit : Nat) (sum : Int) : AddressClass limit :=
  if sum < -2 ^ 31 then .overflow
  else if sum < 0 then .negative
  else if h : sum.toNat < limit then .inRange ⟨sum.toNat, h⟩
  else .outOfRange

/-- The address check of `lw`, `sw`, `in` and `out` (R65, R66, R181): the access at an address in range; below 0 a
diagnostic and no other effect; the two faults where the spec gives no meaning. -/
def checkedAccess (limit : Nat) (f : Fields) (s : State) (access : Fin limit → Result) : Result :=
  match classify limit (effectiveAddress f s) with
  | .overflow => .fault .effectiveAddressOverflow
  | .negative => .next (emit s (.diagNegativeAddress (effectiveAddress f s)))
  | .inRange a => access a
  | .outOfRange => .fault .addressOutOfRange

/-! ### Arithmetic -/

/-- The sum of three signed words, reduced (R141). -/
def addWords (a b c : Word) : Word := wrap32 (a.toInt + b.toInt + c.toInt)

/-- `a - b - c`, reduced (R142). -/
def subWords (a b c : Word) : Word := wrap32 (a.toInt - b.toInt - c.toInt)

/-- The sign of the third operand of `mac`, in one place as R143 advises: it is subtracted (decision D6, conflict
C7; log entry 12). -/
def macThird (c : Int) : Int := -c

/-- `a * b - c`, the full product reduced once (R143). -/
def macWords (a b c : Word) : Word := wrap32 (a.toInt * b.toInt + macThird c.toInt)

/-- Shift left logical by `n`, `n` not negative (R148). -/
def sllBy (v : Word) (n : Nat) : Word :=
  if 32 ≤ n then 0#32 else wrap32 (((v.toNat * 2 ^ n : Nat)) : Int)

/-- Shift right arithmetic by `n`, `n` not negative (R149): the quotient is rounded down. -/
def sraBy (v : Word) (n : Nat) : Word :=
  if 31 ≤ n then (if v.msb then 0xFFFFFFFF#32 else 0#32) else wrap32 (v.toInt / ((2 ^ n : Nat) : Int))

/-- Shift right logical by `n`, `n` not negative (R150). -/
def srlBy (v : Word) (n : Nat) : Word :=
  if 32 ≤ n then 0#32 else BitVec.ofNat 32 (v.toNat / 2 ^ n)

/-- The amount of a shift is the whole signed word (R147, decision D7). A negative amount gives SHIFT_NEG, a free
value (log entry 5). -/
def shiftWords (kind : ShiftKind) (by_ : Word → Nat → Word) (v amount : Word) : Word :=
  if amount.toInt < 0 then Config.shiftNeg kind v amount else by_ v amount.toInt.toNat

end Sys2Proof.Machine
end

