-- ==== Sys2Proof/Machine/System.lean ====
section
/-! DEFINITION. `reti`, `in`, `out`, `halt` (spec/44_system_io.md R190 to R204) and the unknown opcodes
(spec/40_cycle_and_dispatch.md R128), stage S5. -/

namespace Sys2Proof.Machine

/-- R191: all register fields are ignored. -/
def execReti (_f : Fields) (s : State) : Result := .next (returnFromInterrupt s)

/-- `in`, R195: the I/O register at `rs + rt` into `x[rd]` (decision D9), with its hardware-access event. -/
def execIn (f : Fields) (s : State) : Result :=
  checkedAccess 23 f s fun n =>
    .next (emit (writeReg s f.rd (readIo s n)) (.hwAccess s.cycle n .read (readIo s n)))

/-- `out`, R199: `x[rm]` (decision D9) to the I/O register at `rs + rt`, with its hardware-access event. -/
def execOut (f : Fields) (s : State) : Result :=
  checkedAccess 23 f s fun n =>
    .next (emit (writeIo s n (readReg s f.rm)) (.hwAccess s.cycle n .write (readReg s f.rm)))

/-- R204: all register fields are ignored; the cycle runs to its end and stage S9 leaves the pc (R130). -/
def execHalt (_f : Fields) (s : State) : Result := .next { s with halted := true }

/-- An opcode of 22 to 255 (R128): the diagnostic and nothing else. -/
def execUnknown (opcode : BitVec 8) (s : State) : Result := .next (emit s (.diagUnknownOpcode opcode))

end Sys2Proof.Machine
end

