-- ==== Sys2Proof/Machine/Cycle.lean ====
section
/-! DEFINITION. The stages of one cycle other than S5 (spec/40_cycle_and_dispatch.md R120, R121): the core's own,
the interrupt controller's, the timer's, the disk controller's and the output devices'
(spec/60_exceptions.md R220 to R258). -/

namespace Sys2Proof.Machine

/-! ### S0 start, S1 pend, S2 vector, S3 fetch, S4 decode and reload -/

/-- S0 (R123): `pc_set` is cleared and the cycle's events are empty. -/
def stageStart (s : State) : State := { s with pcSet := false, events := [] }

/-- The timer compare's condition (R230). -/
def timerMatches (s : State) : Bool :=
  (!s.cfg.timerMatchGated || decide (readIo s timerenable ≠ 0#32)) &&
    decide (readIo s timercurrent = readIo s timermax)

/-- S1, timer (R230): on a match `irq0status` is set and the count cleared. -/
def pendTimer (s : State) : State :=
  if timerMatches s then writeIo (writeIo s irq0status 1#32) timercurrent 0#32 else s

/-- S1, external line (R235): the line is high when the next schedule entry is this cycle. -/
def pendExternal (s : State) : State :=
  if s.cfg.irq2Schedule[s.schedIdx]? = some s.cycle then
    { writeIo s irq2status 1#32 with schedIdx := s.schedIdx + 1 }
  else s

/-- S1. -/
def stagePend (s : State) : State := pendExternal (pendTimer s)

/-- One line requests: its enable and its status are both not zero (R220, decision D18). -/
def lineRequests (s : State) (enable status : IoIdx) : Bool :=
  decide (readIo s enable ≠ 0#32) && decide (readIo s status ≠ 0#32)

/-- The aggregate interrupt (R220). -/
def irqRequest (s : State) : Bool :=
  lineRequests s irq0enable irq0status || lineRequests s irq1enable irq1status ||
    lineRequests s irq2enable irq2status

/-- S2 (R222, R224): entry on the level of the request, gated by the in-service latch. -/
def stageVector (s : State) : State :=
  if irqRequest s && !s.inService then enterInterrupt s else s

/-- S0 to S2: the state in which the instruction of this cycle is fetched. -/
def beforeFetch (s : State) : State := stageVector (stagePend (stageStart s))

/-- The registers as the trace record shows them: R0 as 0 (R21, R262). -/
def traceRegs (s : State) : Vector Word 16 := s.regs.set 0 0#32

/-- S3 (R124): the trace record is taken with the fetch (R262). -/
def stageTrace (w : InstrWord) (s : State) : State := emit s (.trace s.pc w (traceRegs s))

/-- S4, reload (R126): R1 and R2 take the sign-extended immediates, whatever the opcode. -/
def stageReload (w : InstrWord) (s : State) : State :=
  writeReg (writeReg s 1#4 (sext12 (imm1Of w))) 2#4 (sext12 (imm2Of w))

/-- S0 to S4: the state in which the instruction of this cycle executes. -/
def beforeExecute (s : State) : State :=
  stageReload (fetchWord (beforeFetch s)) (stageTrace (fetchWord (beforeFetch s)) (beforeFetch s))

/-! ### S6 output devices -/

/-- The LED and 7-segment log entries (R258), for a register whose value changed in stage S5. -/
def logChange (before s : State) (n : IoIdx) (entry : Nat → Word → Event) : State :=
  if readIo before n = readIo s n then s else emit s (entry s.cycle (readIo s n))

/-- The monitor (R255): tested in every cycle, the low 8 bits are written, the command is not cleared. -/
def monitorService (s : State) : Result :=
  if readIo s monitorcmd = 1#32 then
    if (readIo s monitoraddr).toNat < fbCells then
      .next (emit
        { s with fb := Memory.write s.fb (readIo s monitoraddr).toNat ((readIo s monitordata).extractLsb' 0 8) }
        (.monitorWrite (readIo s monitoraddr).toNat ((readIo s monitordata).extractLsb' 0 8)))
    else .fault .monitorRange
  else .next s

/-- S6: the logs and then the monitor; `before` is the state before stage S5. -/
def stageDevices (before s : State) : Result :=
  monitorService (logChange before (logChange before s leds .leds) display7seg .display7seg)

/-! ### S7 disk -/

/-- The sector and the buffer of an acceptable command are in range (R244). -/
def diskCommandInRange (s : State) : Bool :=
  decide (0 ≤ (readIo s disksector).toInt) && decide ((readIo s disksector).toInt < diskSectors) &&
    decide (0 ≤ (readIo s diskbuffer).toInt) &&
    decide ((readIo s diskbuffer).toInt + (sectorWords - 1) < s.cfg.dmemWords)

/-- The first disk word of the sector (R41). -/
def diskOffset (s : State) : Nat := (readIo s disksector).toInt.toNat * sectorWords

/-- The first data-memory word of the buffer (R42). -/
def bufferAddress (s : State) : Nat := (readIo s diskbuffer).toInt.toNat

/-- The copy of R244: command 1 reads the disk, any other writes it. -/
def diskTransfer (s : State) : State :=
  if readIo s diskcmd = 1#32 then
    { s with dmem := Memory.copy s.disk s.dmem (diskOffset s) (bufferAddress s) sectorWords }
  else
    { s with disk := Memory.copy s.dmem s.disk (bufferAddress s) (diskOffset s) sectorWords }

/-- Acceptance (R243): the controller is busy until `cycle + 1024`, and the data move at once. -/
def diskAccept (s : State) : State :=
  writeIo { diskTransfer s with diskBusy := true, diskDone := s.cycle + diskLatency } diskstatus 1#32

/-- Completion (R246). -/
def diskComplete (s : State) : State :=
  { writeIo (writeIo (writeIo s diskcmd 0#32) diskstatus 0#32) irq1status 1#32 with diskBusy := false }

/-- S7 (R242). -/
def stageDisk (s : State) : Result :=
  if s.diskBusy then .next (if s.cycle = s.diskDone then diskComplete s else s)
  else if readIo s diskcmd = 0#32 then .next s
  else if diskCommandInRange s then .next (diskAccept s)
  else .fault .diskRange

/-! ### S8 timer count, S9 pc advance, S10 clock, S11 pulse clear -/

/-- A 32-bit counter's next value, modulo 2^32 (R131, R231). -/
def countUp (v : Word) : Word := wrap32 ((v.toNat : Int) + 1)

/-- S8 (R231). -/
def stageTimer (s : State) : State :=
  if readIo s timerenable = 0#32 then s else writeIo s timercurrent (countUp (readIo s timercurrent))

/-- S9 (R130): modulo 4096; not after a transfer, not in the cycle of `halt`. -/
def stageAdvance (s : State) : State :=
  if s.pcSet || s.halted then s else { s with pc := s.pc + 1#12 }

/-- S10 (R131). -/
def stageClock (s : State) : State :=
  { writeIo s clks (countUp (readIo s clks)) with cycle := s.cycle + 1 }

/-- S11 (R132, R236). -/
def stagePulseClear (s : State) : State := writeIo s irq2status 0#32

/-- S8 to S11, which cannot stop. -/
def stagesAfterDisk (s : State) : State := stagePulseClear (stageClock (stageAdvance (stageTimer s)))

/-- S6 to S11, which run in every cycle (R129); `before` is the state before stage S5. -/
def housekeeping (before s : State) : Result :=
  andThen (stageDevices before s) fun s6 => andThen (stageDisk s6) fun s7 => .next (stagesAfterDisk s7)

end Sys2Proof.Machine
end

