-- ==== Sys2Proof/Machine/Alu.lean ====
section
/-! DEFINITION. The nine ALU instructions, stage S5 (spec/41_alu.md R140 to R150). -/

namespace Sys2Proof.Machine

/-- A result of the three sources `x[rs]`, `x[rt]`, `x[rm]`, written to `x[rd]` (R140). -/
def aluThree (op : Word → Word → Word → Word) (f : Fields) (s : State) : Result :=
  writeResult s f.rd (op (readReg s f.rs) (readReg s f.rt) (readReg s f.rm))

/-- A shift of `x[rs]` by `x[rt]`, written to `x[rd]`; `rm` is ignored (R147). -/
def aluShift (kind : ShiftKind) (by_ : Word → Nat → Word) (f : Fields) (s : State) : Result :=
  writeResult s f.rd (shiftWords kind by_ (readReg s f.rs) (readReg s f.rt))

/-- R141. -/
def execAdd (f : Fields) (s : State) : Result := aluThree addWords f s

/-- R142; the three-operand form is the spec's decision D5 (log entry 13). -/
def execSub (f : Fields) (s : State) : Result := aluThree subWords f s

/-- R143. -/
def execMac (f : Fields) (s : State) : Result := aluThree macWords f s

/-- R144; three operands by decision D5. -/
def execAnd (f : Fields) (s : State) : Result := aluThree (fun a b c => a &&& b &&& c) f s

/-- R145; three operands by decision D5. -/
def execOr (f : Fields) (s : State) : Result := aluThree (fun a b c => a ||| b ||| c) f s

/-- R146; three operands by decision D5. -/
def execXor (f : Fields) (s : State) : Result := aluThree (fun a b c => a ^^^ b ^^^ c) f s

/-- R148. -/
def execSll (f : Fields) (s : State) : Result := aluShift .sll sllBy f s

/-- R149. -/
def execSra (f : Fields) (s : State) : Result := aluShift .sra sraBy f s

/-- R150. -/
def execSrl (f : Fields) (s : State) : Result := aluShift .srl srlBy f s

end Sys2Proof.Machine
end

