-- ==== Sys2Proof/Machine/Flags.lean ====
section
/-! DEFINITION. The machine has no flags (spec/10_state.md R57). What other machines compute as flags, this one
computes as the six signed conditions of the branches (spec/42_branch_jump.md R160 to R167). -/

namespace Sys2Proof.Machine

/-- A condition on the signed values of `x[rs]` and `x[rt]` (R160). -/
def compareRegs (cond : Int → Int → Bool) (f : Fields) (s : State) : Bool :=
  cond (signedReg s f.rs) (signedReg s f.rt)

/-- `a = b` (R161). -/
def condEq (a b : Int) : Bool := decide (a = b)

/-- `a != b` (R162). -/
def condNe (a b : Int) : Bool := decide (a ≠ b)

/-- `a < b` (R163). -/
def condLt (a b : Int) : Bool := decide (a < b)

/-- `a > b` (R164). -/
def condGt (a b : Int) : Bool := decide (a > b)

/-- `a <= b` (R165). -/
def condLe (a b : Int) : Bool := decide (a ≤ b)

/-- `a >= b` (R166). -/
def condGe (a b : Int) : Bool := decide (a ≥ b)

end Sys2Proof.Machine
end

