-- ==== Sys2Proof/Machine/Branch.lean ====
section
/-! DEFINITION. The six conditional branches and `jal`, stage S5 (spec/42_branch_jump.md R160 to R172). -/

namespace Sys2Proof.Machine

/-- The pc part of a branch (R160): to the low 12 bits of `x[rm]` when the condition holds, else nothing. -/
def branchOn (cond : Int → Int → Bool) (f : Fields) (s : State) : Result :=
  .next (if compareRegs cond f s then jumpTo s (low12 (readReg s f.rm)) else s)

/-- R161. -/
def execBeq (f : Fields) (s : State) : Result := branchOn condEq f s

/-- R162. -/
def execBne (f : Fields) (s : State) : Result := branchOn condNe f s

/-- R163. -/
def execBlt (f : Fields) (s : State) : Result := branchOn condLt f s

/-- R164. -/
def execBgt (f : Fields) (s : State) : Result := branchOn condGt f s

/-- R165. -/
def execBle (f : Fields) (s : State) : Result := branchOn condLe f s

/-- R166. -/
def execBge (f : Fields) (s : State) : Result := branchOn condGe f s

/-- The link value `pc + 1`, not reduced to 12 bits (R172 (a), decision D14; log entry 20). -/
def linkValue (s : State) : Word := wrap32 ((s.pc.toNat : Int) + 1)

/-- R172: the link is written first, then the target is read (decision D39; log entry 20). -/
def execJal (f : Fields) (s : State) : Result :=
  let linked := writeReg s f.rd (linkValue s)
  .next (jumpTo linked (low12 (readReg linked f.rm)))

end Sys2Proof.Machine
end

