-- ==== Sys2Proof/Machine/LoadStore.lean ====
section
/-! DEFINITION. `lw` and `sw`, stage S5 (spec/43_load_store.md R180 to R186). -/

namespace Sys2Proof.Machine

/-- R183: the word at `rs + rt` plus `x[rm]`, reduced (decision D33), into `x[rd]`. -/
def execLw (f : Fields) (s : State) : Result :=
  checkedAccess s.cfg.dmemWords f s fun a =>
    writeResult s f.rd (wrap32 ((readData s a).toInt + signedReg s f.rm))

/-- R185: `x[rm] + x[rd]`, reduced (decision D33), to the word at `rs + rt`; `rd` is a source. -/
def execSw (f : Fields) (s : State) : Result :=
  checkedAccess s.cfg.dmemWords f s fun a =>
    .next (writeData s a (wrap32 (signedReg s f.rm + signedReg s f.rd)))

end Sys2Proof.Machine
end

