-- ==== Sys2Proof/Machine/Step.lean ====
section
/-! DEFINITION. One step is one cycle (spec/40_cycle_and_dispatch.md R121), and where a step fetches. -/

namespace Sys2Proof.Machine

/-- Stage S5 (R121, R127): the instruction's rule, or R128 for an unknown opcode. -/
def stageExecute (w : InstrWord) (s : State) : Host.Outcome State Fault Refusal :=
  match decode w with
  | .ok i => exec i s
  | .error (.unknownOpcode opcode) => execUnknown opcode s

/-- One cycle (R121). A halted machine runs no further cycle (R133): the stuck state `stopped`. -/
def step (s : State) : Host.Outcome State Fault Refusal :=
  if s.halted then .fault .stopped
  else
    andThen (stageExecute (fetchWord (beforeFetch s)) (beforeExecute s)) (housekeeping (beforeExecute s))

/-- The state with an instruction word where the next step fetches: the location the pc names after stages S0 to
S2, which do not look at instruction memory (R124). Log entry 28. -/
def State.withFetchWord (s : State) (nbits w : Nat) : State :=
  { s with imem := Memory.write s.imem (beforeFetch s).pc.toNat (tableWord nbits w) }

end Sys2Proof.Machine
end

