-- ==== Sys2Proof/Machine/Ports.lean ====
section
/-! DEFINITION. What crosses the block's boundary besides the cycle's events: the launch parameters in
(spec/70_reset_and_hazards.md R272), the output ports (spec/00_scope.md R8), a run under a bound with its event
streams (spec/40_cycle_and_dispatch.md R134, spec/60_exceptions.md R262 to R264) and the end-of-run report
(spec/40_cycle_and_dispatch.md R135). -/

namespace Sys2Proof.Machine

/-- Launch (R272): reset with the parameters and the three images that the environment supplies. -/
def State.launch (cfg : Config) (imem : Memory 48) (dmem disk : Memory 32) : State :=
  { State.reset with cfg := cfg, imem := imem, dmem := dmem, disk := disk }

/-- The LED port (R8, R35). -/
def ledsPort (s : State) : Word := readIo s leds

/-- The 7-segment port (R8, R36). -/
def display7segPort (s : State) : Word := readIo s display7seg

/-- The names of the I/O registers, as the hardware-access trace prints them (R27, R263). -/
def ioName (n : IoIdx) : String :=
  (["irq0enable", "irq1enable", "irq2enable", "irq0status", "irq1status", "irq2status", "irqhandler", "irqreturn",
    "clks", "leds", "display7seg", "timerenable", "timercurrent", "timermax", "diskcmd", "disksector", "diskbuffer",
    "diskstatus", "reserved0", "reserved1", "monitoraddr", "monitordata", "monitorcmd"][n.val]?).getD ""

/-! ### A run and its report -/

/-- Where a run under a bound ends: the state reached, the events of all its cycles in order, and whether the state
is final (R134: a state reached by exhausting the bound is not). -/
structure RunEnd where
  state : State
  log : List Event
  final : Bool
  deriving DecidableEq, Repr

/-- Put the events of an earlier cycle before those of the rest of the run. -/
def RunEnd.after (events : List Event) (e : RunEnd) : RunEnd := { e with log := events ++ e.log }

/-- A run of at most `bound` cycles, up to the stop of R133 (R134). Log entry 33. -/
def runToHalt (bound : Nat) (s : State) : Host.Outcome RunEnd Fault Refusal :=
  match bound with
  | 0 => .next { state := s, log := [], final := s.halted }
  | n + 1 =>
    if s.halted then .next { state := s, log := [], final := true }
    else andThen (step s) fun t => andThen (runToHalt n t) fun e => .next (e.after t.events)

/-- One record of the execution trace (R262). -/
structure TraceRecord where
  pc : PcAddr
  instr : InstrWord
  regs : Vector Word 16
  deriving DecidableEq, Repr

/-- One record of the hardware-access trace (R263); the line shows the register by its name, `ioName`. -/
structure AccessRecord where
  cycle : Nat
  index : IoIdx
  direction : Direction
  value : Word
  deriving DecidableEq, Repr

/-- One entry of the LED log or of the 7-segment log (R258). -/
structure ValueRecord where
  cycle : Nat
  value : Word
  deriving DecidableEq, Repr

/-- The trace record of an event. -/
def traceRecord : Event → Option TraceRecord
  | .trace pc instr regs => some ⟨pc, instr, regs⟩
  | .diagNegativeAddress _ | .diagUnknownOpcode _ | .hwAccess _ _ _ _ | .leds _ _ | .display7seg _ _
  | .monitorWrite _ _ => none

/-- The hardware-access record of an event. -/
def accessRecord : Event → Option AccessRecord
  | .hwAccess cycle index direction value => some ⟨cycle, index, direction, value⟩
  | .diagNegativeAddress _ | .diagUnknownOpcode _ | .trace _ _ _ | .leds _ _ | .display7seg _ _
  | .monitorWrite _ _ => none

/-- The LED log's entry of an event. -/
def ledsRecord : Event → Option ValueRecord
  | .leds cycle value => some ⟨cycle, value⟩
  | .diagNegativeAddress _ | .diagUnknownOpcode _ | .hwAccess _ _ _ _ | .trace _ _ _ | .display7seg _ _
  | .monitorWrite _ _ => none

/-- The 7-segment log's entry of an event. -/
def display7segRecord : Event → Option ValueRecord
  | .display7seg cycle value => some ⟨cycle, value⟩
  | .diagNegativeAddress _ | .diagUnknownOpcode _ | .hwAccess _ _ _ _ | .trace _ _ _ | .leds _ _
  | .monitorWrite _ _ => none

/-- What a run reports (R135), each part as data. Its text forms are out of scope (R4). -/
structure Report where
  dmem : Memory 32
  /-- R3 to R15, in order. -/
  regs : List Word
  disk : Memory 32
  fb : Memory 8
  cycle : Nat
  /-- The execution trace: one record per executed cycle (R262). -/
  trace : List TraceRecord
  /-- The hardware-access trace (R263). -/
  accesses : List AccessRecord
  /-- The LED log (R258, R264). -/
  leds : List ValueRecord
  /-- The 7-segment log (R258, R264). -/
  display7seg : List ValueRecord
  /-- The state reported is final: the run ended by `halt` and not by the bound (R134). -/
  final : Bool
  deriving DecidableEq, Repr

/-- The report of a run (R135). -/
def report (e : RunEnd) : Report :=
  { dmem := e.state.dmem, regs := (List.range 13).map fun k => readReg e.state (BitVec.ofNat 4 (k + 3)),
    disk := e.state.disk, fb := e.state.fb, cycle := e.state.cycle,
    trace := e.log.filterMap traceRecord, accesses := e.log.filterMap accessRecord,
    leds := e.log.filterMap ledsRecord, display7seg := e.log.filterMap display7segRecord, final := e.final }

end Sys2Proof.Machine
end

