-- ==== Sys2Proof/WellFormed.lean ====
section
/-! DEFINITION. Which terms are instructions the encoding admits (spec/30_encoding.md R93, R94, R102) and which
launch parameters keep the spec's launch premise (spec/60_exceptions.md R235). -/

namespace Sys2Proof

/-- A signed 12-bit immediate: -2048 to 2047 (R94). -/
def immInRange (i : Int) : Bool := decide (-2048 ≤ i ∧ i ≤ 2047)

/-- Both immediates fit their fields. Every register number is legal in every field (R93), and a field an
operation ignores is not checked (R100). -/
def Fields.wf (f : Fields) : Bool := immInRange f.imm1 && immInRange f.imm2

/-- An instruction is well formed when its fields are: no other check exists (R99, R100). -/
def Instr.wf (i : Instr) : Bool := i.fields.wf

/-- Every number of the list is greater than the one before it. -/
def strictlyAscending : List Nat → Bool
  | [] => true
  | [_] => true
  | a :: b :: rest => decide (a < b) && strictlyAscending (b :: rest)

/-- The launch premise on IRQ2_SCHEDULE: strictly ascending (R235, spec/93_implementation_defined.md U11). A step
runs without it too; log entry 4. -/
def Config.wf (c : Config) : Bool := strictlyAscending c.irq2Schedule

end Sys2Proof
end

