-- ==== Sys2Proof/Safety.lean ====
section
/-! DEFINITION. The terms in which claims speak: what a step or an instruction leaves unchanged, what counts as a
safe run, the invariants that every step keeps, and when two outcomes agree. -/

namespace Sys2Proof.Machine

/-! ### What is unchanged from `s` to `t` -/

/-- Every general register reads as before. -/
def SameRegs (s t : State) : Prop := ∀ r : RegIdx, readReg t r = readReg s r

/-- Every I/O register reads as before. -/
def SameIo (s t : State) : Prop := ∀ n : IoIdx, readIo t n = readIo s n

/-- The pc and the PC-set flag are as before. -/
def SamePc (s t : State) : Prop := t.pc = s.pc ∧ t.pcSet = s.pcSet

/-- Every address of instruction memory, disk and framebuffer reads as before. -/
def SameOtherMemories (s t : State) : Prop :=
  (∀ a, Memory.read t.imem a = Memory.read s.imem a) ∧ (∀ a, Memory.read t.disk a = Memory.read s.disk a) ∧
    (∀ a, Memory.read t.fb a = Memory.read s.fb a)

/-- Every address of every memory reads as before. -/
def SameMemories (s t : State) : Prop := (∀ a, readData t a = readData s a) ∧ SameOtherMemories s t

/-- The hidden state besides the in-service latch and the halt flag, and the parameters, are as before. -/
def SameHidden (s t : State) : Prop :=
  t.diskBusy = s.diskBusy ∧ t.diskDone = s.diskDone ∧ t.cycle = s.cycle ∧ t.schedIdx = s.schedIdx ∧ t.cfg = s.cfg

/-- All hidden state and the parameters are as before. -/
def SameControl (s t : State) : Prop := t.inService = s.inService ∧ t.halted = s.halted ∧ SameHidden s t

/-- One general register takes `v` (none when it is R0); everything else is as before. -/
def OnlyRegister (s t : State) (rd : RegIdx) (v : Word) : Prop :=
  (∀ r : RegIdx, readReg t r = if r = rd ∧ r ≠ 0#4 then v else readReg s r) ∧
    SamePc s t ∧ SameIo s t ∧ SameControl s t ∧ SameMemories s t ∧ t.events = s.events

/-- One event is added; everything else is as before. -/
def OnlyEvent (s t : State) (e : Event) : Prop :=
  SameRegs s t ∧ SamePc s t ∧ SameIo s t ∧ SameControl s t ∧ SameMemories s t ∧ t.events = s.events ++ [e]

/-! ### What a step fetches and takes -/

/-- What the decoder reads from the word that the next step fetches. -/
def fetched (s : State) : Except DecodeError Instr := decode (fetchWord (beforeFetch s))

/-- The next step takes an interrupt in stage S2. -/
def interruptTaken (s : State) : Bool := irqRequest (stagePend (stageStart s)) && !s.inService

/-- The next step executes no `out` whose index is `n`: it may execute any other instruction, and an `out` to any
other register. -/
def NoOutTo (s : State) (n : IoIdx) : Prop :=
  ∀ f : Fields, fetched s = .ok (.output f) → effectiveAddress f (beforeExecute s) ≠ (n.val : Int)

/-- The next step completes a disk transfer in stage S7 (spec/60_exceptions.md R246). -/
def transferCompletes (s : State) : Bool := s.diskBusy && decide (s.cycle = s.diskDone)

/-- The instructions that write `x[rd]` (spec/10_state.md R23). -/
def writesRd : Instr → Bool
  | .add _ | .sub _ | .mac _ | .and _ | .or _ | .xor _ | .sll _ | .sra _ | .srl _ => true
  | .jal _ | .lw _ | .input _ => true
  | .beq _ | .bne _ | .blt _ | .bgt _ | .ble _ | .bge _ | .sw _ | .reti _ | .output _ | .halt _ => false

/-! ### Shapes of statement shared by several instructions -/

/-- A conditional branch (spec/42_branch_jump.md R160): it completes in every state, and sets the pc from `x[rm]`
exactly when its condition holds of the signed values of `x[rs]` and `x[rt]`. -/
def BranchSpec (i : Fields → Instr) (cond : Int → Int → Prop) : Prop :=
  ∀ (f : Fields) (s : State), ∃ t, exec (i f) s = .next t ∧
    (cond (signedReg s f.rs) (signedReg s f.rt) → t.pc = low12 (readReg s f.rm) ∧ t.pcSet = true) ∧
    (¬ cond (signedReg s f.rs) (signedReg s f.rt) → SamePc s t) ∧
    SameRegs s t ∧ SameIo s t ∧ SameControl s t ∧ SameMemories s t ∧ t.events = s.events

/-- The pc after the whole cycle of a conditional branch (R160 (e), (f)). -/
def BranchStepSpec (i : Fields → Instr) (cond : Int → Int → Prop) : Prop :=
  ∀ (f : Fields) (s t : State), fetched s = .ok (i f) → step s = .next t →
    (cond (signedReg (beforeExecute s) f.rs) (signedReg (beforeExecute s) f.rt) →
      t.pc = low12 (readReg (beforeExecute s) f.rm)) ∧
    (¬ cond (signedReg (beforeExecute s) f.rs) (signedReg (beforeExecute s) f.rt) →
      t.pc.toNat = ((beforeFetch s).pc.toNat + 1) % 4096)

/-- The two faults of the address check (spec/20_memory.md R65). -/
def AddressFaultSpec (i : Fields → Instr) (limit : State → Nat) : Prop :=
  ∀ (f : Fields) (s : State),
    (effectiveAddress f s < -2 ^ 31 → exec (i f) s = .fault .effectiveAddressOverflow) ∧
    ((limit s : Int) ≤ effectiveAddress f s → exec (i f) s = .fault .addressOutOfRange)

/-- A negative address (R66): the diagnostic and no other effect. -/
def NegativeAddressSpec (i : Fields → Instr) : Prop :=
  ∀ (f : Fields) (s : State), -2 ^ 31 ≤ effectiveAddress f s → effectiveAddress f s < 0 →
    ∃ t, exec (i f) s = .next t ∧ OnlyEvent s t (.diagNegativeAddress (effectiveAddress f s))

/-! ### Safe runs and invariants -/

/-- The outcome of `n` cycles, the first stop ending them (R122, R134). -/
def runCycles (n : Nat) (s : State) : Result := Host.Core.run Sys2Proof.core n s

/-- A run of `n` cycles in which nothing stops the machine. -/
def RunsFor (n : Nat) (s : State) : Prop := ∃ t, runCycles n s = .next t

/-- What holds between any two cycles: the slot of R0 holds 0, every memory is in canonical form within its space,
no pulse is left on line 2 (R132), and a transfer in flight ends within the disk latency (R243). -/
structure Invariant (s : State) : Prop where
  zeroSlot : s.regs[0] = 0#32
  imemCanonical : Memory.wf imemLines s.imem = true
  dmemCanonical : Memory.wf s.cfg.dmemWords s.dmem = true
  diskCanonical : Memory.wf diskWords s.disk = true
  fbCanonical : Memory.wf fbCells s.fb = true
  pulseClear : readIo s irq2status = 0#32
  transferWindow : s.diskBusy = true → s.cycle ≤ s.diskDone ∧ s.diskDone < s.cycle + diskLatency

/-- Where the schedule pointer stands between two cycles: past every entry below the cycle number and at the first
of the others, for a strictly ascending schedule (R235). -/
structure ScheduleInvariant (s : State) : Prop where
  ascending : s.cfg.wf = true
  past : ∀ (j e : Nat), j < s.schedIdx → s.cfg.irq2Schedule[j]? = some e → e < s.cycle
  ahead : ∀ (j e : Nat), s.schedIdx ≤ j → s.cfg.irq2Schedule[j]? = some e → s.cycle ≤ e

/-! ### Agreement of two outcomes -/

/-- Both go on in related states, or both stop for the same reason. -/
def AgreeUpTo (related : State → State → Prop) (o p : Result) : Prop :=
  match o, p with
  | .next s, .next t => related s t
  | .fault q, .fault r => q = r
  | .refused q, .refused r => q = r
  | _, _ => False

/-- An event with the columns of R1 and R2 taken out of a trace record (spec/60_exceptions.md R262). -/
def Event.withoutImmediates : Event → Event
  | .trace pc instr regs => .trace pc instr ((regs.set 1 0#32).set 2 0#32)
  | .diagNegativeAddress sum => .diagNegativeAddress sum
  | .diagUnknownOpcode opcode => .diagUnknownOpcode opcode
  | .hwAccess cycle index direction value => .hwAccess cycle index direction value
  | .leds cycle value => .leds cycle value
  | .display7seg cycle value => .display7seg cycle value
  | .monitorWrite cell data => .monitorWrite cell data

/-- The two states differ in nothing but the R1 and R2 columns of the cycle's trace record. -/
def EqualButTracedImmediates (s t : State) : Prop :=
  { s with events := s.events.map Event.withoutImmediates } =
    { t with events := t.events.map Event.withoutImmediates }

/-- The two states differ in nothing but the framebuffer. -/
def EqualButFramebuffer (s t : State) : Prop := { s with fb := [] } = { t with fb := [] }

end Sys2Proof.Machine
end

