-- ==== Sys2Proof/Certificates/Slice0/Obligations.lean ====
section
/-! DEFINITION. The statements for the provers, each a `def Obligations.<Name> : Prop`. OBLIGATIONS.json gives for each
its rule or section of spec/. -/

open Sys2Proof Sys2Proof.Machine

/-! ### Encoding -/

/-- Decoding the encoding of a well-formed instruction gives it back. Decode and encode agree on every well-formed
instruction. The opcode numbers are the spec's decision D2 (log entry 17). Derived from 30_encoding.md section 1
(the one format, R91); 30_encoding.md section 5 (the encoding function, R102); 92_eei_decisions.md D2. -/
def Obligations.DecodeReadsBackEncode : Prop :=
  ∀ i : Instr, i.wf = true → decode (encode i) = .ok i

/-- Each word that decodes is the encoding of what it decodes to. The opcode numbers are the spec's decision D2 (log
entry 17), the bit numbers its decision D1 (log entry 31). Derived from 30_encoding.md section 1 (R91);
30_encoding.md section 2 (R94); 92_eei_decisions.md D1; 92_eei_decisions.md D2. -/
def Obligations.EncodeReadsBackDecode : Prop :=
  ∀ (w : InstrWord) (i : Instr), decode w = .ok i → i.wf = true ∧ encode i = w

/-- The opcode field alone decides between the 22 instructions and an unknown opcode. Decoding is total and selects
by the opcode field alone. The numbering is the spec's decision D2 (log entry 17). Derived from 30_encoding.md
section 3 (opcode map); 30_encoding.md section 4 (R98, R99); 92_eei_decisions.md D2. -/
def Obligations.EveryWordIsAnInstructionOrAnUnknownOpcode : Prop :=
  ∀ w : InstrWord,
    (∀ i, decode w = .ok i → i.opcode = opcodeOf w ∧ i.fields = fieldsOf w) ∧
    ((∃ i, decode w = .ok i) ↔ (opcodeOf w).toNat ≤ 21) ∧
    (22 ≤ (opcodeOf w).toNat → decode w = .error (.unknownOpcode (opcodeOf w)))

/-- Six worked encodings of the spec decode to their instructions. The opcode numbers are the spec's decision D2
(log entry 17). Derived from 30_encoding.md section 5 (worked encodings); 92_eei_decisions.md D2. -/
def Obligations.WorkedEncodingsDecode : Prop :=
  decode 0x003001005000#48 = .ok (.add ⟨3, 0, 0, 1, 5, 0⟩) ∧
    decode 0x014410001000#48 = .ok (.sub ⟨4, 4, 1, 0, 1, 0⟩) ∧
    decode 0x0A0401002000#48 = .ok (.bne ⟨0, 4, 0, 1, 2, 0⟩) ∧
    decode 0x14010200E001#48 = .ok (.output ⟨0, 1, 0, 2, 14, 1⟩) ∧
    decode 0x106710010000#48 = .ok (.lw ⟨6, 7, 1, 0, 16, 0⟩) ∧
    decode 0x150000000000#48 = .ok (.halt ⟨0, 0, 0, 0, 0, 0⟩)

/-- The encoded word is the sum of its shifted fields. The bit numbers are the spec's decision D1 (log entry 31).
Derived from 30_encoding.md section 5 (encoding function, R102; its fields do not overlap, so or is a sum);
92_eei_decisions.md D1. -/
def Obligations.EncodingPlacesTheFields : Prop :=
  ∀ (op : BitVec 8) (f : Fields), (encodeFields op f).toNat =
    op.toNat * 2 ^ 40 + f.rd.toNat * 2 ^ 36 + f.rs.toNat * 2 ^ 32 + f.rt.toNat * 2 ^ 28 + f.rm.toNat * 2 ^ 24 +
      (f.imm1 % 4096).toNat * 2 ^ 12 + (f.imm2 % 4096).toNat

/-! ### General registers -/

/-- R0 reads 0, a write to it has no effect, and the instruction's other effects remain. Formalises R21. -/
def Obligations.R0ReadsZeroAndDiscardsWrites : Prop :=
  ∀ s : State, readReg s 0#4 = 0#32 ∧ (∀ v, writeReg s 0#4 v = s) ∧
    ∀ f : Fields, f.rd = 0#4 →
      exec (.add f) s = .next s ∧
      exec (.jal f) s = .next (jumpTo s (low12 (readReg s f.rm))) ∧
      (0 ≤ effectiveAddress f s → effectiveAddress f s < s.cfg.dmemWords → exec (.lw f) s = .next s) ∧
      (∀ n : IoIdx, effectiveAddress f s = (n.val : Int) →
        exec (.input f) s = .next (emit s (.hwAccess s.cycle n .read (readIo s n))))

/-- Every cycle loads R1 and R2 with the sign-extended immediates before the instruction executes. Formalises R94. -/
def Obligations.ReloadLoadsTheSignedImmediates : Prop :=
  ∀ s : State,
    (∀ w : InstrWord,
      (readReg (stageReload w s) 1#4).toInt =
        (if (imm1Of w).toNat < 2048 then ((imm1Of w).toNat : Int) else ((imm1Of w).toNat : Int) - 4096) ∧
      (readReg (stageReload w s) 2#4).toInt =
        (if (imm2Of w).toNat < 2048 then ((imm2Of w).toNat : Int) else ((imm2Of w).toNat : Int) - 4096) ∧
      ∀ r : RegIdx, r ≠ 1#4 → r ≠ 2#4 → readReg (stageReload w s) r = readReg s r) ∧
    readReg (beforeExecute s) 1#4 = sext12 (imm1Of (fetchWord (beforeFetch s))) ∧
    readReg (beforeExecute s) 2#4 = sext12 (imm2Of (fetchWord (beforeFetch s)))

/-- R3 to R15 change in a cycle only by an instruction that names them as rd. Formalises R23. -/
def Obligations.OrdinaryRegistersChangeOnlyThroughRd : Prop :=
  ∀ (s t : State) (r : RegIdx), r ≠ 0#4 → r ≠ 1#4 → r ≠ 2#4 → step s = .next t → readReg t r ≠ readReg s r →
    ∃ i, fetched s = .ok i ∧ writesRd i = true ∧ i.fields.rd = r

/-! ### ALU -/

/-- add completes and writes (a+b+c) mod 2^32 to rd, and nothing else. Formalises R141. -/
def Obligations.AddWritesTheWrappedSum : Prop :=
  ∀ (f : Fields) (s : State), (∃ t, exec (.add f) s = .next t ∧ OnlyRegister s t f.rd
      (wrap32 (signedReg s f.rs + signedReg s f.rt + signedReg s f.rm))) ∧
    wrap32 (signedReg s f.rs + signedReg s f.rt + signedReg s f.rm) =
      wrap32 (((readReg s f.rs).toNat + (readReg s f.rt).toNat + (readReg s f.rm).toNat : Nat) : Int)

/-- sub completes and writes rs - rt - rm modulo 2^32 to rd, and nothing else. The three-operand form is the spec's
decision D5 (log entry 13). Derived from 41_alu.md section 2 (Arithmetic); 92_eei_decisions.md D5. -/
def Obligations.SubWritesTheWrappedDifference : Prop :=
  ∀ (f : Fields) (s : State), ∃ t, exec (.sub f) s = .next t ∧ OnlyRegister s t f.rd
      (readReg s f.rs - readReg s f.rt - readReg s f.rm)

/-- mac completes and writes rs * rt - rm modulo 2^32 to rd, and nothing else. That the third operand is subtracted
is the spec's decision D6 (log entry 12). Derived from 41_alu.md section 2 (Arithmetic); 92_eei_decisions.md D6;
90_conflicts.md C7. -/
def Obligations.MacWritesTheWrappedProductLessRm : Prop :=
  ∀ (f : Fields) (s : State), ∃ t, exec (.mac f) s = .next t ∧ OnlyRegister s t f.rd
      (readReg s f.rs * readReg s f.rt - readReg s f.rm)

/-- and, or, xor complete and write the three-operand bitwise result to rd, and nothing else. The three-operand
forms are the spec's decision D5 (log entry 13). Derived from 41_alu.md section 3 (Logic); 92_eei_decisions.md
D5. -/
def Obligations.LogicOpsCombineThreeSources : Prop :=
  ∀ (f : Fields) (s : State),
    (∃ t, exec (.and f) s = .next t ∧
      OnlyRegister s t f.rd (readReg s f.rs &&& readReg s f.rt &&& readReg s f.rm)) ∧
    (∃ t, exec (.or f) s = .next t ∧
      OnlyRegister s t f.rd (readReg s f.rs ||| readReg s f.rt ||| readReg s f.rm)) ∧
    (∃ t, exec (.xor f) s = .next t ∧
      OnlyRegister s t f.rd (readReg s f.rs ^^^ readReg s f.rt ^^^ readReg s f.rm))

/-- sll completes; amounts of 32 and more give 0, smaller ones shift zeros in, negative ones give SHIFT_NEG. Roles
and large amounts are the spec's decision D7 (log entry 14); a negative amount gives the free value SHIFT_NEG
(log entry 5), and nothing here rests on what it is. That the spec makes it a parameter is its decision D8.
Derived from 41_alu.md section 4 (Shifts); 92_eei_decisions.md D7; 92_eei_decisions.md D8; 00_scope.md section 3
(SHIFT_NEG). -/
def Obligations.SllShiftsByTheWholeAmount : Prop :=
  ∀ (f : Fields) (s : State), ∃ t, exec (.sll f) s = .next t ∧ OnlyRegister s t f.rd
      (if signedReg s f.rt < 0 then Config.shiftNeg .sll (readReg s f.rs) (readReg s f.rt)
       else if 32 ≤ signedReg s f.rt then 0#32
       else readReg s f.rs <<< (signedReg s f.rt).toNat)

/-- sra completes; amounts of 31 and more give the sign, smaller ones shift the sign in, negative ones give
SHIFT_NEG. Decision D7 (log entry 14); a negative amount gives the free value SHIFT_NEG (log entry 5). That the
spec makes it a parameter is its decision D8. Derived from 41_alu.md section 4 (Shifts); 92_eei_decisions.md D7;
92_eei_decisions.md D8; 00_scope.md section 3 (SHIFT_NEG). -/
def Obligations.SraShiftsByTheWholeAmount : Prop :=
  ∀ (f : Fields) (s : State), ∃ t, exec (.sra f) s = .next t ∧ OnlyRegister s t f.rd
      (if signedReg s f.rt < 0 then Config.shiftNeg .sra (readReg s f.rs) (readReg s f.rt)
       else if 31 ≤ signedReg s f.rt then (if (readReg s f.rs).msb then 0xFFFFFFFF#32 else 0#32)
       else (readReg s f.rs).sshiftRight (signedReg s f.rt).toNat)

/-- srl completes; amounts of 32 and more give 0, smaller ones shift zeros in, negative ones give SHIFT_NEG.
Decision D7 (log entry 14); a negative amount gives the free value SHIFT_NEG (log entry 5). That the spec makes
it a parameter is its decision D8. Derived from 41_alu.md section 4 (Shifts); 92_eei_decisions.md D7;
92_eei_decisions.md D8; 00_scope.md section 3 (SHIFT_NEG). -/
def Obligations.SrlShiftsByTheWholeAmount : Prop :=
  ∀ (f : Fields) (s : State), ∃ t, exec (.srl f) s = .next t ∧ OnlyRegister s t f.rd
      (if signedReg s f.rt < 0 then Config.shiftNeg .srl (readReg s f.rs) (readReg s f.rt)
       else if 32 ≤ signedReg s f.rt then 0#32
       else readReg s f.rs >>> (signedReg s f.rt).toNat)

/-- sra of a negative word rises to -1 and stays; srl of any word falls to 0 and stays. Amounts that are not masked
to five bits are the spec's decision D7 (log entry 14). Derived from 41_alu.md section 4 (R149, R150: the
property of the document's section 8); 92_eei_decisions.md D7. -/
def Obligations.RightShiftsSettleMonotonically : Prop :=
  ∀ (v : Word) (n : Nat),
    (v.msb = true → (sraBy v n).toInt ≤ (sraBy v (n + 1)).toInt ∧ (31 ≤ n → sraBy v n = 0xFFFFFFFF#32)) ∧
    (srlBy v (n + 1)).toNat ≤ (srlBy v n).toNat ∧ (32 ≤ n → srlBy v n = 0#32)

/-! ### Branches, jump, pc -/

/-- The six branches complete, compare signed, and set the pc from the low 12 bits of x[rm] exactly when taken.
Formalises R161, R162, R163, R164, R165, R166. -/
def Obligations.BranchesCompareSignedAndSetThePc : Prop :=
  BranchSpec .beq (fun a b => a = b) ∧
    BranchSpec .bne (fun a b => a ≠ b) ∧
    BranchSpec .blt (fun a b => a < b) ∧
    BranchSpec .bgt (fun a b => a > b) ∧
    BranchSpec .ble (fun a b => a ≤ b) ∧
    BranchSpec .bge (fun a b => a ≥ b)

/-- After the cycle of a branch the pc is the target, or exactly one more than the branch's address. Derived from
42_branch_jump.md section 1 (R160 (b), (e), (f)); 40_cycle_and_dispatch.md section 4. -/
def Obligations.BranchStepAdvancesOrJumps : Prop :=
  BranchStepSpec .beq (fun a b => a = b) ∧
    BranchStepSpec .bne (fun a b => a ≠ b) ∧
    BranchStepSpec .blt (fun a b => a < b) ∧
    BranchStepSpec .bgt (fun a b => a > b) ∧
    BranchStepSpec .ble (fun a b => a ≤ b) ∧
    BranchStepSpec .bge (fun a b => a ≥ b)

/-- jal completes, writes pc + 1 to rd and jumps to the low 12 bits of x[rm] read after the link. The unreduced link
is the spec's decision D14 and the order of link and target its decision D39 (log entry 20). Derived from
42_branch_jump.md section 3 (Jump and link); 92_eei_decisions.md D14; 92_eei_decisions.md D39. -/
def Obligations.JalLinksThenJumps : Prop :=
  ∀ (f : Fields) (s : State), ∃ t, exec (.jal f) s = .next t ∧
    (∀ r : RegIdx, readReg t r =
      if r = f.rd ∧ r ≠ 0#4 then BitVec.ofNat 32 (s.pc.toNat + 1) else readReg s r) ∧
    t.pc = (if f.rm = f.rd ∧ f.rm ≠ 0#4 then s.pc + 1#12 else low12 (readReg s f.rm)) ∧ t.pcSet = true ∧
    SameIo s t ∧ SameControl s t ∧ SameMemories s t ∧ t.events = s.events

/-- A cycle advances the pc by one modulo 4096 unless the instruction set it or halted. Decisions D15 and D16 of the
spec (log entries 18 and 19). Derived from 40_cycle_and_dispatch.md section 4 (R130); 92_eei_decisions.md D15;
92_eei_decisions.md D16. -/
def Obligations.PcAdvancesUnlessSetOrHalted : Prop :=
  ∀ s s5 t : State, stageExecute (fetchWord (beforeFetch s)) (beforeExecute s) = .next s5 → step s = .next t →
    t.pc.toNat = if s5.pcSet = true ∨ s5.halted = true then s5.pc.toNat else (s5.pc.toNat + 1) % 4096

/-! ### Load and store -/

/-- lw at an address of data memory completes and writes the word there plus x[rm] to rd, and nothing else. The wrap
of the sum is the spec's decision D33 (log entry 30). Derived from 43_load_store.md section 2 (R183);
92_eei_decisions.md D33. -/
def Obligations.LwLoadsAndAdds : Prop :=
  ∀ (f : Fields) (s : State) (a : Nat), effectiveAddress f s = (a : Int) → a < s.cfg.dmemWords →
    ∃ t, exec (.lw f) s = .next t ∧ OnlyRegister s t f.rd (readData s a + readReg s f.rm)

/-- sw at an address of data memory completes and stores x[rm] + x[rd] there, and nothing else. The wrap of the sum
is the spec's decision D33 (log entry 30). Derived from 43_load_store.md section 2 (R185); 92_eei_decisions.md
D33. -/
def Obligations.SwStoresTheSum : Prop :=
  ∀ (f : Fields) (s : State) (a : Nat), effectiveAddress f s = (a : Int) → a < s.cfg.dmemWords →
    ∃ t, exec (.sw f) s = .next t ∧ readData t a = readReg s f.rm + readReg s f.rd ∧
      (∀ b, b ≠ a → readData t b = readData s b) ∧ SameOtherMemories s t ∧
      SameRegs s t ∧ SamePc s t ∧ SameIo s t ∧ SameControl s t ∧ t.events = s.events

/-- lw, sw, in, out stop on an address below -2^31 or at or above the limit. The two faults are the spec's decisions
D11 and D12 (log entry 10). Derived from 20_memory.md section 2 (R65, R67); 92_eei_decisions.md D11;
92_eei_decisions.md D12. -/
def Obligations.AddressesOutsideStop : Prop :=
  AddressFaultSpec .lw (fun s => s.cfg.dmemWords) ∧ AddressFaultSpec .sw (fun s => s.cfg.dmemWords) ∧
    AddressFaultSpec .input (fun _ => 23) ∧ AddressFaultSpec .output (fun _ => 23)

/-- lw, sw, in, out at a negative address raise the diagnostic and have no other effect. That the sum is not wrapped
before its sign is tested is the spec's decision D11 (log entry 10); the event's content is its decision D34.
That the access has no other effect is its decision D30 (log entry 24). Derived from 20_memory.md section 2
(R66); 60_exceptions.md section 1 (R211); 92_eei_decisions.md D11; 92_eei_decisions.md D30; 92_eei_decisions.md
D34. -/
def Obligations.NegativeAddressHasNoEffect : Prop :=
  NegativeAddressSpec .lw ∧ NegativeAddressSpec .sw ∧ NegativeAddressSpec .input ∧ NegativeAddressSpec .output

/-- A cycle whose access has a negative address leaves R3 to R15, advances the pc and does not stop the run. What
still happens in such a cycle is the spec's decision D30 (log entry 24). That the sum is not wrapped is its
decision D11, the event's content its decision D34 (log entry 10). Derived from 20_memory.md section 2 (R66);
43_load_store.md section 2 (R186); 92_eei_decisions.md D30; 92_eei_decisions.md D11; 92_eei_decisions.md D34. -/
def Obligations.NegativeAddressStepSkips : Prop :=
  ∀ (s t : State) (f : Fields),
    (fetched s = .ok (.lw f) ∨ fetched s = .ok (.sw f) ∨ fetched s = .ok (.input f) ∨ fetched s = .ok (.output f)) →
    -2 ^ 31 ≤ effectiveAddress f (beforeExecute s) → effectiveAddress f (beforeExecute s) < 0 → step s = .next t →
    (∀ r : RegIdx, r ≠ 1#4 → r ≠ 2#4 → readReg t r = readReg s r) ∧
    t.pc.toNat = ((beforeFetch s).pc.toNat + 1) % 4096 ∧ t.halted = false ∧
    Event.diagNegativeAddress (effectiveAddress f (beforeExecute s)) ∈ t.events ∧
    (∀ c n d v, Event.hwAccess c n d v ∉ t.events)

/-! ### System and I/O -/

/-- in of an existing I/O register completes, writes its value to rd and emits the access event, and nothing else.
That rd receives the value is the spec's decision D9 (log entry 15). That each of the 23 registers is readable
as a full 32-bit word, and that the read has no side effect, is its decision D24 (log entry 23). Derived from
44_system_io.md section 2 (R195); 20_memory.md section 3 (R68); 92_eei_decisions.md D9; 92_eei_decisions.md D24. -/
def Obligations.InReadsAnIoRegister : Prop :=
  ∀ (f : Fields) (s : State) (n : IoIdx), effectiveAddress f s = (n.val : Int) →
    ∃ t, exec (.input f) s = .next t ∧
      (∀ r : RegIdx, readReg t r = if r = f.rd ∧ r ≠ 0#4 then readIo s n else readReg s r) ∧
      SamePc s t ∧ SameIo s t ∧ SameControl s t ∧ SameMemories s t ∧
      t.events = s.events ++ [.hwAccess s.cycle n .read (readIo s n)]

/-- out to an existing I/O register completes, stores x[rm] there and emits the access event, and nothing else. That
rm supplies the value is the spec's decision D9 (log entry 15). That each of the 23 registers, the statuses and
the reserved ones included, is writable as a full 32-bit word is its decision D24 (log entry 23). Derived from
44_system_io.md section 2 (R199); 20_memory.md section 3 (R68); 92_eei_decisions.md D9; 92_eei_decisions.md D24. -/
def Obligations.OutWritesAnIoRegister : Prop :=
  ∀ (f : Fields) (s : State) (n : IoIdx), effectiveAddress f s = (n.val : Int) →
    ∃ t, exec (.output f) s = .next t ∧
      (∀ m : IoIdx, readIo t m = if m = n then readReg s f.rm else readIo s m) ∧
      SameRegs s t ∧ SamePc s t ∧ SameControl s t ∧ SameMemories s t ∧
      t.events = s.events ++ [.hwAccess s.cycle n .write (readReg s f.rm)]

/-- What an I/O register holds after the cycle of an out to it. That rm supplies the value is the spec's decision D9
(log entry 15), the wrap of the two counters its decision D19 (log entry 25), the setting of diskstatus at
acceptance its decision D20 and the completion test its decision D22 (log entry 21). That 'enabled' means
timerenable is not 0 is its decision D18 (log entry 18), that each register, the statuses and the reserved ones
included, takes and keeps the full word its decision D24 (log entry 23), that hardware never clears monitorcmd
its decision D23 (log entry 22), the numbering and the line of the disk its decisions D3 and D4 (log entry 16).
Derived from 20_memory.md section 3 (R69); 44_system_io.md section 2 (R199); 92_eei_decisions.md D9;
92_eei_decisions.md D19; 92_eei_decisions.md D20; 92_eei_decisions.md D22; 92_eei_decisions.md D3;
92_eei_decisions.md D4; 92_eei_decisions.md D18; 92_eei_decisions.md D23; 92_eei_decisions.md D24. -/
def Obligations.OutValueAfterTheCycle : Prop :=
  ∀ (s t : State) (f : Fields) (n : IoIdx), fetched s = .ok (.output f) →
    effectiveAddress f (beforeExecute s) = (n.val : Int) → step s = .next t →
    let v := readReg (beforeExecute s) f.rm
    (n ∉ [clks, irq2status, timercurrent, diskcmd, irq1status, diskstatus] → readIo t n = v) ∧
    (n = clks → readIo t n = v + 1#32) ∧
    (n = irq2status → readIo t n = 0#32) ∧
    (n = timercurrent → readIo t n = if readIo t timerenable = 0#32 then v else v + 1#32) ∧
    (n = diskcmd ∨ n = irq1status → ¬ (s.diskBusy = true ∧ s.cycle = s.diskDone) → readIo t n = v) ∧
    (n = diskstatus → t.diskBusy = s.diskBusy → readIo t n = v)

/-- An out alone changes the I/O registers no stage writes; irqreturn, irq1status, diskcmd, diskstatus change
besides only by their stage. The numbering is the spec's decision D3 (log entry 16); the 12 bits of irqreturn
its decision D31 (log entry 18); who sets diskstatus and when a transfer completes its decisions D20 and D22
(log entry 21). Of the other registers that hardware writes, EveryStepCountsOneCycle speaks of clks,
PulseIsClearAfterEveryStep of irq2status, TimerLeftAloneCounts of timercurrent and irq0status. That hardware
never clears monitorcmd is its decision D23 (log entry 22), that the two reserved registers are plain storage
its decision D24 (log entry 23), that line 1 is the disk's its decision D4 (log entry 16), when an interrupt is
taken its decisions D18 and D38 (log entry 18). Derived from 10_state.md section 3 (table of the I/O registers,
column 'written by hardware'; R30, R33, R40, R43); 60_exceptions.md section 5 (R243, R246); 92_eei_decisions.md
D3; 92_eei_decisions.md D20; 92_eei_decisions.md D22; 92_eei_decisions.md D31; 92_eei_decisions.md D4;
92_eei_decisions.md D18; 92_eei_decisions.md D23; 92_eei_decisions.md D24; 92_eei_decisions.md D38. -/
def Obligations.ConfigurationRegistersChangeOnlyByOut : Prop :=
  (∀ (s t : State) (n : IoIdx),
      n ∈ [irq0enable, irq1enable, irq2enable, irqhandler, leds, display7seg, timerenable, timermax, disksector,
        diskbuffer, reserved0, reserved1, monitoraddr, monitordata, monitorcmd] →
      step s = .next t → readIo t n ≠ readIo s n →
      ∃ f, fetched s = .ok (.output f) ∧ effectiveAddress f (beforeExecute s) = (n.val : Int)) ∧
    (∀ s t : State, step s = .next t →
      (NoOutTo s irqreturn →
        readIo t irqreturn = if interruptTaken s then zext12 s.pc else readIo s irqreturn) ∧
      (NoOutTo s irq1status →
        readIo t irq1status = if transferCompletes s then 1#32 else readIo s irq1status) ∧
      (NoOutTo s diskcmd → readIo t diskcmd = if transferCompletes s then 0#32 else readIo s diskcmd) ∧
      (NoOutTo s diskstatus →
        readIo t diskstatus = if transferCompletes s then 0#32
          else if s.diskBusy = false ∧ t.diskBusy = true then 1#32 else readIo s diskstatus))

/-- reti completes, takes the pc from irqreturn and clears the in-service latch, and nothing else. That the low 12
bits are used is the spec's decision D31 (log entry 18). Derived from 44_system_io.md section 1 (R191);
92_eei_decisions.md D31. -/
def Obligations.RetiRestoresThePcAndReleasesTheLatch : Prop :=
  ∀ (f : Fields) (s : State), ∃ t, exec (.reti f) s = .next t ∧
    t.pc.toNat = (readIo s irqreturn).toNat % 4096 ∧ t.inService = false ∧ t.pcSet = true ∧
    SameRegs s t ∧ SameIo s t ∧ t.halted = s.halted ∧ SameHidden s t ∧ SameMemories s t ∧ t.events = s.events

/-- halt completes and sets the halt flag, and nothing else. Derived from 44_system_io.md section 3 (R204). -/
def Obligations.HaltSetsOnlyTheHaltFlag : Prop :=
  ∀ (f : Fields) (s : State), ∃ t, exec (.halt f) s = .next t ∧ t.halted = true ∧
    SameRegs s t ∧ SamePc s t ∧ SameIo s t ∧ t.inService = s.inService ∧ SameHidden s t ∧ SameMemories s t ∧
    t.events = s.events

/-- A cycle ends halted exactly when it executed halt, with the pc on that halt; a halted machine runs no further
cycle. That the pc stays is the spec's decision D16 (log entry 19); the fault is the model's form of the stopped
machine (log entry 9). Derived from 40_cycle_and_dispatch.md section 5 (R133); 44_system_io.md section 3 (R204);
92_eei_decisions.md D16. -/
def Obligations.OnlyHaltStopsTheMachine : Prop :=
  (∀ s t : State, step s = .next t →
      (t.halted = true ↔ ∃ f, fetched s = .ok (.halt f)) ∧ (t.halted = true → t.pc = (beforeFetch s).pc)) ∧
    (∀ s : State, s.halted = true → step s = .fault .stopped)

/-- An opcode of 22 to 255 raises its diagnostic and has no other effect; its cycle reloads R1 and R2 and advances
the pc. What still happens in the cycle is the spec's decision D30 (log entry 24). The event's content is its
decision D34 (log entry 10). Derived from 40_cycle_and_dispatch.md section 3 (R128); 30_encoding.md section 4
(R98); 92_eei_decisions.md D30; 92_eei_decisions.md D34. -/
def Obligations.UnknownOpcodeIsANoOperation : Prop :=
  (∀ (w : InstrWord) (s : State), 22 ≤ (opcodeOf w).toNat →
      ∃ t, stageExecute w s = .next t ∧ OnlyEvent s t (.diagUnknownOpcode (opcodeOf w))) ∧
    (∀ s t : State, 22 ≤ (opcodeOf (fetchWord (beforeFetch s))).toNat → step s = .next t →
      readReg t 1#4 = sext12 (imm1Of (fetchWord (beforeFetch s))) ∧
      readReg t 2#4 = sext12 (imm2Of (fetchWord (beforeFetch s))) ∧
      (∀ r : RegIdx, r ≠ 1#4 → r ≠ 2#4 → readReg t r = readReg s r) ∧
      t.pc.toNat = ((beforeFetch s).pc.toNat + 1) % 4096 ∧ t.halted = false ∧
      Event.diagUnknownOpcode (opcodeOf (fetchWord (beforeFetch s))) ∈ t.events ∧
      (∀ c n d v, Event.hwAccess c n d v ∉ t.events))

/-! ### The step -/

/-- A step runs the instruction that the word at the pc decodes to, between the stages before and after S5. Derived
from 40_cycle_and_dispatch.md section 1 (R120, R121); 40_cycle_and_dispatch.md section 3 (R127). -/
def Obligations.StepRunsTheDecodedInstruction : Prop :=
  ∀ (s : State) (i : Instr), s.halted = false → fetched s = .ok i →
    step s = andThen (exec i (beforeExecute s)) (housekeeping (beforeExecute s)) ∧
    ∀ s5, exec i (beforeExecute s) = .next s5 → step s = housekeeping (beforeExecute s) s5

/-- No step ends in a refusal. The names of the faults are the spec's decision D34 (log entry 10); that a shift by a
negative amount goes on is the model's supply of SHIFT_NEG (log entry 5). Derived from 30_encoding.md section 4
(R99); 60_exceptions.md section 1 (R210, R213); 92_eei_decisions.md D34. -/
def Obligations.StepNeverRefuses : Prop :=
  ∀ (s : State) (r : Refusal), step s ≠ .refused r

/-- Every step counts one cycle, and clks counts with it unless the cycle executes an out to clks. The wrap of clks
is the spec's decision D19 (log entry 25). An out to clks: OutValueAfterTheCycle. Derived from
40_cycle_and_dispatch.md section 4 (R131); 10_state.md section 3 (R34); 92_eei_decisions.md D19. -/
def Obligations.EveryStepCountsOneCycle : Prop :=
  ∀ s t : State, step s = .next t → t.cycle = s.cycle + 1 ∧
    (NoOutTo s clks → readIo t clks = readIo s clks + 1#32 ∧
      (readIo s clks = wrap32 (s.cycle : Int) → readIo t clks = wrap32 (t.cycle : Int)))

/-- irq2status is 0 at the end of every cycle, and so until stage S1 of the next. Formalises R132. -/
def Obligations.PulseIsClearAfterEveryStep : Prop :=
  ∀ s t : State, step s = .next t → readIo t irq2status = 0#32 ∧ readIo (stageStart t) irq2status = 0#32

/-- Instruction memory never changes in a run. Formalises R77. -/
def Obligations.InstructionMemoryIsConstant : Prop :=
  ∀ (n : Nat) (s t : State), runCycles n s = .next t → t.imem = s.imem

/-- Data memory, disk and framebuffer change in a cycle only through sw, an accepted disk command, or the monitor.
That the monitor writes in every cycle in which monitorcmd is 1, and writes the low 8 bits of monitordata, is
the spec's decision D23 (log entry 22). That an accepted command lies in range, so that no other address is
reached, is its decision D21 (log entry 11). Derived from 20_memory.md section 1 (R60); 20_memory.md section 4
(R70); 60_exceptions.md section 6 (R255); 92_eei_decisions.md D23; 92_eei_decisions.md D21. -/
def Obligations.MemoriesChangeOnlyThroughTheirWriters : Prop :=
  ∀ s t : State, step s = .next t →
    (∀ a, readData t a ≠ readData s a →
      (∃ f, fetched s = .ok (.sw f) ∧ effectiveAddress f (beforeExecute s) = (a : Int)) ∨
      (s.diskBusy = false ∧ t.diskBusy = true ∧ readIo t diskcmd = 1#32 ∧
        (readIo t diskbuffer).toInt ≤ a ∧ (a : Int) < (readIo t diskbuffer).toInt + 128)) ∧
    (∀ k, Memory.read t.disk k ≠ Memory.read s.disk k →
      s.diskBusy = false ∧ t.diskBusy = true ∧ readIo t diskcmd ≠ 0#32 ∧ readIo t diskcmd ≠ 1#32 ∧
        (readIo t disksector).toInt * 128 ≤ k ∧ (k : Int) < (readIo t disksector).toInt * 128 + 128) ∧
    (∀ c, Memory.read t.fb c ≠ Memory.read s.fb c →
      readIo t monitorcmd = 1#32 ∧ (readIo t monitoraddr).toNat = c ∧
        Memory.read t.fb c = (readIo t monitordata).extractLsb' 0 8)

/-- A data word read after a write is the word written; every other address reads as before. Formalises R64. -/
def Obligations.ReadAfterWriteInDataMemory : Prop :=
  ∀ (s : State) (a b : Nat) (v : Word), readData (writeData s a v) b = (if b = a then v else readData s b) ∧
    { writeData s a v with dmem := s.dmem } = s

/-! ### Interrupts -/

/-- Interrupt entry saves the pc in irqreturn, goes to irqhandler and sets the latch; else stage S2 does nothing.
Interrupt entry. Decisions D15, D18, D31 and D38 of the spec (log entry 18). Derived from 60_exceptions.md
section 2 (R220, R222); 92_eei_decisions.md D15; 92_eei_decisions.md D18; 92_eei_decisions.md D31;
92_eei_decisions.md D38. -/
def Obligations.InterruptEntrySavesAndVectors : Prop :=
  ∀ s : State, let p := stagePend (stageStart s)
    (interruptTaken s = true ↔ s.inService = false ∧
      ((readIo p irq0enable ≠ 0#32 ∧ readIo p irq0status ≠ 0#32) ∨
       (readIo p irq1enable ≠ 0#32 ∧ readIo p irq1status ≠ 0#32) ∨
       (readIo p irq2enable ≠ 0#32 ∧ readIo p irq2status ≠ 0#32))) ∧
    (interruptTaken s = true →
      (readIo (beforeFetch s) irqreturn).toNat = s.pc.toNat ∧
      (beforeFetch s).pc.toNat = (readIo s irqhandler).toNat % 4096 ∧
      (beforeFetch s).inService = true ∧ (beforeFetch s).pcSet = false ∧
      (∀ n, n ≠ irqreturn → readIo (beforeFetch s) n = readIo p n) ∧
      SameRegs p (beforeFetch s) ∧ SameMemories p (beforeFetch s) ∧ SameHidden p (beforeFetch s) ∧
      (beforeFetch s).halted = p.halted ∧ (beforeFetch s).events = p.events) ∧
    (interruptTaken s = false → beforeFetch s = p)

/-- The in-service latch is set only by an entry and cleared only by reti. When an interrupt is taken
(interruptTaken) rests on the spec's decisions D18 and D38 (log entry 18). Derived from 10_state.md section 4
(R46); 60_exceptions.md section 2 (R222, R224); 92_eei_decisions.md D18; 92_eei_decisions.md D38. -/
def Obligations.InServiceFollowsEntryAndReti : Prop :=
  ∀ s t : State, step s = .next t →
    ((∃ f, fetched s = .ok (.reti f)) → t.inService = false) ∧
    ((∀ f, fetched s ≠ .ok (.reti f)) → t.inService = (s.inService || interruptTaken s))

/-- reti with irqreturn as the entry left it gives back the pc saved at the entry. That the entry saves zext_12 of
the pc and that reti uses the low 12 bits is the spec's decision D31 (log entry 18). When an interrupt is taken
rests on its decisions D18 and D38 (log entry 18). Derived from 44_system_io.md section 1 (R191 (a));
60_exceptions.md section 2 (R223); 92_eei_decisions.md D31; 92_eei_decisions.md D18; 92_eei_decisions.md D38. -/
def Obligations.ReturnResumesTheInterruptedProgram : Prop :=
  ∀ (s u : State) (f : Fields), interruptTaken s = true →
    readIo u irqreturn = readIo (beforeFetch s) irqreturn →
    ∃ t, exec (.reti f) u = .next t ∧ t.pc = s.pc ∧ t.inService = false

/-- A status left set and enabled re-enters the handler in the cycle after reti, on the level reading of the
request. The claim rests on choices: the level reading is the spec's decision D38 (conflict C5), the truth of
enables and statuses its decision D18, the low 12 bits of irqhandler its decision D31 (log entry 18). Derived
from 44_system_io.md section 1 (R191 (c)); 60_exceptions.md section 2 (R222); 90_conflicts.md C5;
92_eei_decisions.md D18; 92_eei_decisions.md D31; 92_eei_decisions.md D38. -/
def Obligations.PendingStatusReentersAfterReti : Prop :=
  ∀ (s t : State) (f : Fields), fetched s = .ok (.reti f) → step s = .next t →
    (readIo t irq0enable ≠ 0#32 ∧ readIo t irq0status ≠ 0#32) ∨
      (readIo t irq1enable ≠ 0#32 ∧ readIo t irq1status ≠ 0#32) →
    interruptTaken t = true ∧ readIo (beforeFetch t) irqreturn = zext12 t.pc ∧
      (beforeFetch t).pc = low12 (readIo t irqhandler) ∧ (beforeFetch t).inService = true

/-! ### Timer and external line -/

/-- The timer compare sets irq0status and clears the count exactly on a match. The gate TIMER_MATCH_GATED and its
two readings are the spec's decision D17 (log entry 3). That line 0 is the timer's is its decision D4 (log entry
16). Derived from 60_exceptions.md section 3 (R230); 92_eei_decisions.md D17; 92_eei_decisions.md D4. -/
def Obligations.TimerComparePendsAndClears : Prop :=
  ∀ s : State,
    ((s.cfg.timerMatchGated = false ∨ readIo s timerenable ≠ 0#32) ∧ readIo s timercurrent = readIo s timermax →
      ∀ n, readIo (pendTimer s) n =
        if n = irq0status then 1#32 else if n = timercurrent then 0#32 else readIo s n) ∧
    (¬ ((s.cfg.timerMatchGated = false ∨ readIo s timerenable ≠ 0#32) ∧
        readIo s timercurrent = readIo s timermax) → pendTimer s = s) ∧
    { pendTimer s with io := s.io } = s

/-- In a cycle without an out to timercurrent the timer clears on a match and then counts if enabled. The gate of
the compare is the spec's decision D17 (log entry 3), the truth of timerenable its decision D18 (log entry 18),
the wrap its decision D19 (log entry 25). No stage after S5 writes timerenable, so its value at the end of the
cycle is the one stage S8 tests. That line 0 is the timer's is its decision D4 (log entry 16). Derived from
60_exceptions.md section 3 (R230, R231); 92_eei_decisions.md D17; 92_eei_decisions.md D18; 92_eei_decisions.md
D19; 92_eei_decisions.md D4. -/
def Obligations.TimerLeftAloneCounts : Prop :=
  ∀ s t : State, step s = .next t →
    (NoOutTo s timercurrent → readIo t timercurrent =
      (if timerMatches s then 0#32 else readIo s timercurrent) +
        (if readIo t timerenable = 0#32 then 0#32 else 1#32)) ∧
    (NoOutTo s irq0status → readIo t irq0status = if timerMatches s then 1#32 else readIo s irq0status) ∧
    (NoOutTo s timerenable → readIo t timerenable = readIo s timerenable) ∧
    (NoOutTo s timermax → readIo t timermax = readIo s timermax)

/-- With timermax N of at least 1, the timer enabled and no out to a timer register, matches are exactly N cycles
apart. Truth of timerenable: the spec's decision D18 (log entry 18); it holds with and without the gate of
decision D17 (log entry 3). Derived from 60_exceptions.md section 3 (R232 (a)); 92_eei_decisions.md D17;
92_eei_decisions.md D18. -/
def Obligations.TimerPeriodIsTimermax : Prop :=
  ∀ (s t : State) (n : Nat), readIo s timercurrent = readIo s timermax → readIo s timermax ≠ 0#32 →
    readIo s timerenable ≠ 0#32 → 1 ≤ n → n ≤ (readIo s timermax).toNat →
    (∀ m u, m < n → runCycles m s = .next u →
      NoOutTo u timercurrent ∧ NoOutTo u timermax ∧ NoOutTo u timerenable) →
    runCycles n s = .next t →
    (readIo t timercurrent).toNat = n ∧ readIo t timermax = readIo s timermax ∧
      readIo t timerenable = readIo s timerenable ∧
      (timerMatches t = true ↔ n = (readIo s timermax).toNat)

/-- With an ascending schedule the external line is high in a cycle exactly when the schedule lists its number. The
schedule with its pointer is the spec's decision D27 (log entry 4). The premise is the invariant that
SchedulePointerIsKept states. That line 2 is the external one is the spec's decision D4 (log entry 16). Derived
from 60_exceptions.md section 4 (R235); 92_eei_decisions.md D27; 92_eei_decisions.md D4. -/
def Obligations.ExternalLineIsHighExactlyWhenScheduled : Prop :=
  ∀ s : State, ScheduleInvariant s →
    (s.cycle ∈ s.cfg.irq2Schedule →
      readIo (stagePend (stageStart s)) irq2status = 1#32 ∧ (stagePend (stageStart s)).schedIdx = s.schedIdx + 1) ∧
    (s.cycle ∉ s.cfg.irq2Schedule →
      readIo (stagePend (stageStart s)) irq2status = readIo s irq2status ∧
      (stagePend (stageStart s)).schedIdx = s.schedIdx)

/-- Every step keeps the schedule pointer at the first entry not below the cycle number. The schedule with its
pointer is the spec's decision D27 (log entry 4). Derived from 60_exceptions.md section 4 (R235); 10_state.md
section 4 (R52); 92_eei_decisions.md D27. -/
def Obligations.SchedulePointerIsKept : Prop :=
  ∀ s t : State, ScheduleInvariant s → step s = .next t → ScheduleInvariant t

/-! ### Disk, monitor, LEDs -/

/-- An acceptable disk command is accepted at once: 128 words move, the controller is busy for 1024 cycles. That the
hardware sets diskstatus is the spec's decision D20 (log entry 21). The range, with both values read as signed,
is its decision D21 (log entry 11), the order of the two tests of the stage its decision D22 (log entry 21).
Derived from 60_exceptions.md section 5 (R242, R243, R244); 92_eei_decisions.md D20; 92_eei_decisions.md D21;
92_eei_decisions.md D22. -/
def Obligations.DiskAcceptanceMovesOneSector : Prop :=
  ∀ s : State, let K := (readIo s disksector).toInt
    let B := (readIo s diskbuffer).toInt
    s.diskBusy = false → readIo s diskcmd ≠ 0#32 → 0 ≤ K → K ≤ 127 → 0 ≤ B → B + 127 < s.cfg.dmemWords →
    ∃ t, stageDisk s = .next t ∧ t.diskBusy = true ∧ t.diskDone = s.cycle + 1024 ∧
      (∀ n, readIo t n = if n = diskstatus then 1#32 else readIo s n) ∧
      (∀ a, readData t a =
        if readIo s diskcmd = 1#32 ∧ B ≤ a ∧ (a : Int) < B + 128
        then Memory.read s.disk (128 * K.toNat + (a - B.toNat)) else readData s a) ∧
      (∀ k, Memory.read t.disk k =
        if readIo s diskcmd ≠ 1#32 ∧ 128 * K ≤ k ∧ (k : Int) < 128 * K + 128
        then readData s (B.toNat + (k - 128 * K.toNat)) else Memory.read s.disk k) ∧
      SameRegs s t ∧ SamePc s t ∧ t.inService = s.inService ∧ t.halted = s.halted ∧ t.cycle = s.cycle ∧
      t.schedIdx = s.schedIdx ∧ t.cfg = s.cfg ∧ t.imem = s.imem ∧ t.fb = s.fb ∧ t.events = s.events

/-- Stage S7 completes a transfer in its completion cycle, ignores commands in flight, idles without one, and faults
out of range. The fault is the spec's decision D21 (log entry 11), the test for equality its decision D22 (log
entry 21). That line 1 is the disk's is its decision D4 (log entry 16). Derived from 60_exceptions.md section 5
(R242, R245, R246); 92_eei_decisions.md D21; 92_eei_decisions.md D22; 92_eei_decisions.md D4. -/
def Obligations.DiskStageOtherwise : Prop :=
  ∀ s : State,
    (s.diskBusy = true → s.cycle = s.diskDone → ∃ t, stageDisk s = .next t ∧ t.diskBusy = false ∧
      (∀ n, readIo t n = if n = irq1status then 1#32 else if n = diskcmd ∨ n = diskstatus then 0#32
        else readIo s n) ∧
      SameRegs s t ∧ SamePc s t ∧ SameMemories s t ∧ t.inService = s.inService ∧ t.halted = s.halted ∧
      t.cycle = s.cycle ∧ t.events = s.events) ∧
    (s.diskBusy = true → s.cycle ≠ s.diskDone → stageDisk s = .next s) ∧
    (s.diskBusy = false → readIo s diskcmd = 0#32 → stageDisk s = .next s) ∧
    (s.diskBusy = false → readIo s diskcmd ≠ 0#32 →
      ((readIo s disksector).toInt < 0 ∨ 127 < (readIo s disksector).toInt ∨ (readIo s diskbuffer).toInt < 0 ∨
        (s.cfg.dmemWords : Int) ≤ (readIo s diskbuffer).toInt + 127) → stageDisk s = .fault .diskRange)

/-- A transfer in flight stays in flight up to its completion cycle and is over right after it. The test of the
completion cycle for equality is the spec's decision D22 (log entry 21). That line 1 is the disk's is its
decision D4 (log entry 16). Derived from 60_exceptions.md section 5 (R245, R246); 92_eei_decisions.md D22;
92_eei_decisions.md D4. -/
def Obligations.TransferCompletesAfterExactlyItsLatency : Prop :=
  ∀ (s t : State) (n : Nat), s.diskBusy = true → s.cycle ≤ s.diskDone →
    runCycles n s = .next t →
    (n ≤ s.diskDone - s.cycle → t.diskBusy = true ∧ t.diskDone = s.diskDone) ∧
    (n = s.diskDone - s.cycle + 1 → t.diskBusy = false ∧ readIo t diskcmd = 0#32 ∧
      readIo t diskstatus = 0#32 ∧ readIo t irq1status = 1#32)

/-- While monitorcmd is 1 the monitor writes the low 8 bits of monitordata to its cell; otherwise it does nothing.
Decision D23 of the spec (log entry 22). Derived from 60_exceptions.md section 6 (R255); 92_eei_decisions.md
D23. -/
def Obligations.MonitorWritesItsCell : Prop :=
  ∀ s : State,
    (readIo s monitorcmd = 1#32 → (readIo s monitoraddr).toNat ≤ 65535 → ∃ t, monitorService s = .next t ∧
      (∀ c, Memory.read t.fb c = if c = (readIo s monitoraddr).toNat
        then (readIo s monitordata).extractLsb' 0 8 else Memory.read s.fb c) ∧
      { t with fb := s.fb, events := s.events } = s) ∧
    (readIo s monitorcmd = 1#32 → 65535 < (readIo s monitoraddr).toNat → monitorService s = .fault .monitorRange) ∧
    (readIo s monitorcmd ≠ 1#32 → monitorService s = .next s)

/-- A cycle logs the LEDs and the 7-segment display exactly when their register changed in it. Formalises R258. -/
def Obligations.LedAndDisplayChangesAreLogged : Prop :=
  ∀ s t : State, step s = .next t →
    (Event.leds s.cycle (readIo t leds) ∈ t.events ↔ readIo t leds ≠ readIo s leds) ∧
    (Event.display7seg s.cycle (readIo t display7seg) ∈ t.events ↔ readIo t display7seg ≠ readIo s display7seg)

/-! ### Reset, invariants, noninterference -/

/-- At reset every register, latch, counter and memory reads 0. The values are the spec's decisions D13 and D25 (log
entries 1 and 7). Derived from 70_reset_and_hazards.md section 1 (reset table); 92_eei_decisions.md D13;
92_eei_decisions.md D25. -/
def Obligations.ResetIsAllZero : Prop :=
  (∀ r, readReg State.reset r = 0#32) ∧ (∀ n, readIo State.reset n = 0#32) ∧ State.reset.pc = 0#12 ∧
    State.reset.inService = false ∧ State.reset.diskBusy = false ∧ State.reset.diskDone = 0 ∧
    State.reset.cycle = 0 ∧ State.reset.pcSet = false ∧ State.reset.halted = false ∧ State.reset.schedIdx = 0 ∧
    (∀ a, Memory.read State.reset.imem a = 0#48) ∧ (∀ a, readData State.reset a = 0#32) ∧
    (∀ a, Memory.read State.reset.disk a = 0#32) ∧ (∀ a, Memory.read State.reset.fb a = 0#8)

/-- The machine invariant holds at reset. The reset values are the spec's decision D13 (log entry 1), the canonical
form is the model's own (log entry 6). Derived from 70_reset_and_hazards.md section 1; 92_eei_decisions.md D13. -/
def Obligations.InvariantHoldsAtReset : Prop :=
  Invariant State.reset

/-- A launch with canonical images and an ascending schedule meets both invariants. It rests on the all-zero reset
values of the spec's decision D13 (log entry 1) and on the canonical form of the memories, which is the model's
own (log entry 6); the ascending schedule is the launch premise of decision D27 (log entry 4). Derived from
70_reset_and_hazards.md section 1 (launch parameters); 60_exceptions.md section 4; 92_eei_decisions.md D13;
92_eei_decisions.md D27. -/
def Obligations.LaunchMeetsTheInvariants : Prop :=
  ∀ (cfg : Config) (imem : Memory 48) (dmem disk : Memory 32), cfg.wf = true →
    Memory.wf imemLines imem = true → Memory.wf cfg.dmemWords dmem = true → Memory.wf diskWords disk = true →
    Invariant (State.launch cfg imem dmem disk) ∧ ScheduleInvariant (State.launch cfg imem dmem disk)

/-- Every step keeps the machine invariant. The canonical form is the model's own (log entry 6). That no address
outside a space is written rests on the spec's decisions D11, D21 and D23 (log entries 10, 11 and 22), the
window of a transfer on its decision D22 (log entry 21). Derived from 10_state.md section 6 (R59); 10_state.md
section 1 (R21); 60_exceptions.md section 5; 20_memory.md section 2; 92_eei_decisions.md D11;
92_eei_decisions.md D21; 92_eei_decisions.md D22; 92_eei_decisions.md D23. -/
def Obligations.EveryStepKeepsTheInvariant : Prop :=
  ∀ s t : State, Invariant s → step s = .next t → Invariant t

/-- What R1 and R2 hold between cycles is seen by nothing but their two columns of the trace record. That the trace
record shows the two registers before the reload is the spec's decision D36 (log entry 29). Derived from
10_state.md section 1 (R22); 70_reset_and_hazards.md section 3 (R280); 92_eei_decisions.md D36. -/
def Obligations.R1AndR2CarryNothingAcrossCycles : Prop :=
  ∀ (s : State) (a b : Word),
    AgreeUpTo EqualButTracedImmediates (step (writeReg (writeReg s 1#4 a) 2#4 b)) (step s)

/-- The framebuffer's contents influence nothing else. Derived from 10_state.md section 5 (R56); 20_memory.md
section 1 (R60). -/
def Obligations.FramebufferIsNeverRead : Prop :=
  ∀ (s : State) (fb : Memory 8), AgreeUpTo EqualButFramebuffer (step { s with fb := fb }) (step s)
end

