-- ==== Sys2Proof/Laws/Memory.lean ====
section
/-! SUPPORT. The laws of one address space: reading after writing, the canonical form, and the block copy. -/

namespace Sys2Proof.Machine

variable {w : Nat}

@[simp] theorem Memory.read_nil (a : Nat) : Memory.read ([] : Memory w) a = 0#w := rfl

theorem Memory.read_erase (m : Memory w) (a b : Nat) :
    Memory.read (Memory.erase m a) b = if b = a then 0#w else Memory.read m b := by
  induction m with
  | nil => simp [Memory.erase]
  | cons p rest ih =>
    obtain ⟨k, u⟩ := p
    by_cases hk : k = a
    · subst hk
      by_cases hb : b = k
      · subst hb; simpa [Memory.erase] using ih
      · simp [Memory.erase, ih, hb, Memory.read, Ne.symm hb]
    · by_cases hb : k = b
      · subst hb; simp [Memory.erase, Memory.read, hk]
      · simp [Memory.erase, Memory.read, hk, hb, ih]

theorem Memory.read_insert (m : Memory w) (a b : Nat) (v : BitVec w) (h : ∀ p ∈ m, p.1 ≠ a) :
    Memory.read (Memory.insert m a v) b = if b = a then v else Memory.read m b := by
  induction m with
  | nil => by_cases hb : a = b <;> simp [Memory.insert, Memory.read, hb, eq_comm]
  | cons p rest ih =>
    obtain ⟨k, u⟩ := p
    have hk : k ≠ a := h (k, u) (by simp)
    by_cases hlt : a < k
    · by_cases hb : a = b
      · subst hb; simp [Memory.insert, Memory.read, hlt]
      · simp [Memory.insert, hlt, Memory.read, hb, Ne.symm hb]
    · by_cases hb : k = b
      · subst hb; simp [Memory.insert, hlt, Memory.read, hk]
      · simp [Memory.insert, hlt, Memory.read, hb, ih fun q hq => h q (by simp [hq])]

theorem Memory.erase_keys (m : Memory w) (a : Nat) : ∀ p ∈ Memory.erase m a, p.1 ≠ a := by
  induction m with
  | nil => simp [Memory.erase]
  | cons p rest ih =>
    obtain ⟨k, u⟩ := p
    by_cases hk : k = a
    · simpa [Memory.erase, hk] using ih
    · intro q hq
      simp only [Memory.erase, hk, if_false, List.mem_cons] at hq
      rcases hq with rfl | hq
      · exact hk
      · exact ih q hq

/-- What every address reads after a write (R64), in every memory, canonical or not. -/
theorem Memory.read_write (m : Memory w) (a b : Nat) (v : BitVec w) :
    Memory.read (Memory.write m a v) b = if b = a then v else Memory.read m b := by
  unfold Memory.write
  by_cases hv : v = 0#w
  · simp only [hv, if_true]; exact Memory.read_erase m a b
  · simp only [hv, if_false]
    rw [Memory.read_insert _ a b v (Memory.erase_keys m a), Memory.read_erase]
    by_cases hb : b = a <;> simp [hb]

@[simp] theorem Memory.read_write_same (m : Memory w) (a : Nat) (v : BitVec w) :
    Memory.read (Memory.write m a v) a = v := by simp [Memory.read_write]

@[simp] theorem Memory.read_write_other (m : Memory w) (a b : Nat) (v : BitVec w) (h : b ≠ a) :
    Memory.read (Memory.write m a v) b = Memory.read m b := by simp [Memory.read_write, h]

/-! ### The canonical form -/

theorem Memory.wfFrom_cons (low limit k : Nat) (v : BitVec w) (rest : Memory w) :
    Memory.wfFrom low limit ((k, v) :: rest) = true ↔
      low ≤ k ∧ k < limit ∧ v ≠ 0#w ∧ Memory.wfFrom (k + 1) limit rest = true := by
  simp [Memory.wfFrom, and_assoc]

theorem Memory.wfFrom_weaken {low low' limit : Nat} (h : low' ≤ low) (m : Memory w)
    (hm : Memory.wfFrom low limit m = true) : Memory.wfFrom low' limit m = true := by
  cases m with
  | nil => rfl
  | cons p rest =>
    obtain ⟨k, v⟩ := p
    rw [Memory.wfFrom_cons] at hm ⊢
    exact ⟨h.trans hm.1, hm.2⟩

theorem Memory.wfFrom_erase (low limit : Nat) (m : Memory w) (a : Nat)
    (hm : Memory.wfFrom low limit m = true) : Memory.wfFrom low limit (Memory.erase m a) = true := by
  induction m generalizing low with
  | nil => rfl
  | cons p rest ih =>
    obtain ⟨k, v⟩ := p
    rw [Memory.wfFrom_cons] at hm
    by_cases hk : k = a
    · simp only [Memory.erase, hk, if_true]
      exact ih low (Memory.wfFrom_weaken (by omega) rest hm.2.2.2)
    · simp only [Memory.erase, hk, if_false]
      rw [Memory.wfFrom_cons]
      exact ⟨hm.1, hm.2.1, hm.2.2.1, ih (k + 1) hm.2.2.2⟩

theorem Memory.wfFrom_insert (low limit : Nat) (m : Memory w) (a : Nat) (v : BitVec w)
    (hm : Memory.wfFrom low limit m = true) (hlow : low ≤ a) (hlim : a < limit) (hv : v ≠ 0#w)
    (hkeys : ∀ p ∈ m, p.1 ≠ a) : Memory.wfFrom low limit (Memory.insert m a v) = true := by
  induction m generalizing low with
  | nil => exact (Memory.wfFrom_cons ..).mpr ⟨hlow, hlim, hv, rfl⟩
  | cons p rest ih =>
    obtain ⟨k, u⟩ := p
    have hk : k ≠ a := hkeys (k, u) (by simp)
    rw [Memory.wfFrom_cons] at hm
    by_cases hlt : a < k
    · simp only [Memory.insert, hlt, if_true]
      rw [Memory.wfFrom_cons, Memory.wfFrom_cons]
      exact ⟨hlow, hlim, hv, hlt, hm.2⟩
    · simp only [Memory.insert, hlt, if_false]
      rw [Memory.wfFrom_cons]
      exact ⟨hm.1, hm.2.1, hm.2.2.1,
        ih (k + 1) hm.2.2.2 (by omega) (fun q hq => hkeys q (by simp [hq]))⟩

/-- A write inside the space keeps the canonical form. -/
theorem Memory.wf_write (limit : Nat) (m : Memory w) (a : Nat) (v : BitVec w)
    (hm : Memory.wf limit m = true) (ha : a < limit) : Memory.wf limit (Memory.write m a v) = true := by
  unfold Memory.write
  have he := Memory.wfFrom_erase 0 limit m a hm
  by_cases hv : v = 0#w
  · rw [if_pos hv]; exact he
  · rw [if_neg hv]
    exact Memory.wfFrom_insert 0 limit _ a v he (Nat.zero_le a) ha hv (Memory.erase_keys m a)

@[simp] theorem Memory.wf_nil (limit : Nat) : Memory.wf limit ([] : Memory w) = true := rfl

/-! ### The block copy -/

/-- What every address reads after a copy (R70, R244). -/
theorem Memory.read_copy (src dst : Memory w) (a b n c : Nat) :
    Memory.read (Memory.copy src dst a b n) c =
      if b ≤ c ∧ c < b + n then Memory.read src (a + (c - b)) else Memory.read dst c := by
  induction n with
  | zero => rw [Memory.copy, if_neg (by omega)]
  | succ n ih =>
    rw [Memory.copy, Memory.read_write]
    by_cases hc : c = b + n
    · subst hc; simp
    · rw [if_neg hc, ih]
      by_cases h : b ≤ c ∧ c < b + n
      · rw [if_pos h, if_pos ⟨h.1, by omega⟩]
      · rw [if_neg h, if_neg (by omega)]

/-- A copy inside the space keeps the canonical form. -/
theorem Memory.wf_copy (limit : Nat) (src dst : Memory w) (a b n : Nat)
    (hd : Memory.wf limit dst = true) (h : b + n ≤ limit) :
    Memory.wf limit (Memory.copy src dst a b n) = true := by
  induction n with
  | zero => exact hd
  | succ n ih => exact Memory.wf_write limit _ _ _ (ih (by omega)) (by omega)

end Sys2Proof.Machine
end

