-- ==== Sys2Proof/Laws/State.lean ====
section
/-! SUPPORT. What each shared update of the state leaves in each field: one lemma per field per update, true by
`rfl`, so that no later proof unfolds a record update. -/

namespace Sys2Proof.Machine

/-! ### writeReg -/

@[simp] theorem writeReg_pc (s : State) (r : RegIdx) (v : Word) : (writeReg s r v).pc = s.pc := rfl
@[simp] theorem writeReg_io (s : State) (r : RegIdx) (v : Word) : (writeReg s r v).io = s.io := rfl
@[simp] theorem writeReg_inService (s : State) (r : RegIdx) (v : Word) : (writeReg s r v).inService = s.inService := rfl
@[simp] theorem writeReg_diskBusy (s : State) (r : RegIdx) (v : Word) : (writeReg s r v).diskBusy = s.diskBusy := rfl
@[simp] theorem writeReg_diskDone (s : State) (r : RegIdx) (v : Word) : (writeReg s r v).diskDone = s.diskDone := rfl
@[simp] theorem writeReg_cycle (s : State) (r : RegIdx) (v : Word) : (writeReg s r v).cycle = s.cycle := rfl
@[simp] theorem writeReg_pcSet (s : State) (r : RegIdx) (v : Word) : (writeReg s r v).pcSet = s.pcSet := rfl
@[simp] theorem writeReg_halted (s : State) (r : RegIdx) (v : Word) : (writeReg s r v).halted = s.halted := rfl
@[simp] theorem writeReg_schedIdx (s : State) (r : RegIdx) (v : Word) : (writeReg s r v).schedIdx = s.schedIdx := rfl
@[simp] theorem writeReg_imem (s : State) (r : RegIdx) (v : Word) : (writeReg s r v).imem = s.imem := rfl
@[simp] theorem writeReg_dmem (s : State) (r : RegIdx) (v : Word) : (writeReg s r v).dmem = s.dmem := rfl
@[simp] theorem writeReg_disk (s : State) (r : RegIdx) (v : Word) : (writeReg s r v).disk = s.disk := rfl
@[simp] theorem writeReg_fb (s : State) (r : RegIdx) (v : Word) : (writeReg s r v).fb = s.fb := rfl
@[simp] theorem writeReg_cfg (s : State) (r : RegIdx) (v : Word) : (writeReg s r v).cfg = s.cfg := rfl
@[simp] theorem writeReg_events (s : State) (r : RegIdx) (v : Word) : (writeReg s r v).events = s.events := rfl

/-! ### writeIo -/

@[simp] theorem writeIo_regs (s : State) (n : IoIdx) (v : Word) : (writeIo s n v).regs = s.regs := rfl
@[simp] theorem writeIo_pc (s : State) (n : IoIdx) (v : Word) : (writeIo s n v).pc = s.pc := rfl
@[simp] theorem writeIo_inService (s : State) (n : IoIdx) (v : Word) : (writeIo s n v).inService = s.inService := rfl
@[simp] theorem writeIo_diskBusy (s : State) (n : IoIdx) (v : Word) : (writeIo s n v).diskBusy = s.diskBusy := rfl
@[simp] theorem writeIo_diskDone (s : State) (n : IoIdx) (v : Word) : (writeIo s n v).diskDone = s.diskDone := rfl
@[simp] theorem writeIo_cycle (s : State) (n : IoIdx) (v : Word) : (writeIo s n v).cycle = s.cycle := rfl
@[simp] theorem writeIo_pcSet (s : State) (n : IoIdx) (v : Word) : (writeIo s n v).pcSet = s.pcSet := rfl
@[simp] theorem writeIo_halted (s : State) (n : IoIdx) (v : Word) : (writeIo s n v).halted = s.halted := rfl
@[simp] theorem writeIo_schedIdx (s : State) (n : IoIdx) (v : Word) : (writeIo s n v).schedIdx = s.schedIdx := rfl
@[simp] theorem writeIo_imem (s : State) (n : IoIdx) (v : Word) : (writeIo s n v).imem = s.imem := rfl
@[simp] theorem writeIo_dmem (s : State) (n : IoIdx) (v : Word) : (writeIo s n v).dmem = s.dmem := rfl
@[simp] theorem writeIo_disk (s : State) (n : IoIdx) (v : Word) : (writeIo s n v).disk = s.disk := rfl
@[simp] theorem writeIo_fb (s : State) (n : IoIdx) (v : Word) : (writeIo s n v).fb = s.fb := rfl
@[simp] theorem writeIo_cfg (s : State) (n : IoIdx) (v : Word) : (writeIo s n v).cfg = s.cfg := rfl
@[simp] theorem writeIo_events (s : State) (n : IoIdx) (v : Word) : (writeIo s n v).events = s.events := rfl

/-! ### writeData -/

@[simp] theorem writeData_regs (s : State) (a : Nat) (v : Word) : (writeData s a v).regs = s.regs := rfl
@[simp] theorem writeData_pc (s : State) (a : Nat) (v : Word) : (writeData s a v).pc = s.pc := rfl
@[simp] theorem writeData_io (s : State) (a : Nat) (v : Word) : (writeData s a v).io = s.io := rfl
@[simp] theorem writeData_inService (s : State) (a : Nat) (v : Word) : (writeData s a v).inService = s.inService := rfl
@[simp] theorem writeData_diskBusy (s : State) (a : Nat) (v : Word) : (writeData s a v).diskBusy = s.diskBusy := rfl
@[simp] theorem writeData_diskDone (s : State) (a : Nat) (v : Word) : (writeData s a v).diskDone = s.diskDone := rfl
@[simp] theorem writeData_cycle (s : State) (a : Nat) (v : Word) : (writeData s a v).cycle = s.cycle := rfl
@[simp] theorem writeData_pcSet (s : State) (a : Nat) (v : Word) : (writeData s a v).pcSet = s.pcSet := rfl
@[simp] theorem writeData_halted (s : State) (a : Nat) (v : Word) : (writeData s a v).halted = s.halted := rfl
@[simp] theorem writeData_schedIdx (s : State) (a : Nat) (v : Word) : (writeData s a v).schedIdx = s.schedIdx := rfl
@[simp] theorem writeData_imem (s : State) (a : Nat) (v : Word) : (writeData s a v).imem = s.imem := rfl
@[simp] theorem writeData_dmem (s : State) (a : Nat) (v : Word) : (writeData s a v).dmem = Memory.write s.dmem a v := rfl
@[simp] theorem writeData_disk (s : State) (a : Nat) (v : Word) : (writeData s a v).disk = s.disk := rfl
@[simp] theorem writeData_fb (s : State) (a : Nat) (v : Word) : (writeData s a v).fb = s.fb := rfl
@[simp] theorem writeData_cfg (s : State) (a : Nat) (v : Word) : (writeData s a v).cfg = s.cfg := rfl
@[simp] theorem writeData_events (s : State) (a : Nat) (v : Word) : (writeData s a v).events = s.events := rfl

/-! ### jumpTo -/

@[simp] theorem jumpTo_regs (s : State) (a : PcAddr) : (jumpTo s a).regs = s.regs := rfl
@[simp] theorem jumpTo_pc (s : State) (a : PcAddr) : (jumpTo s a).pc = a := rfl
@[simp] theorem jumpTo_io (s : State) (a : PcAddr) : (jumpTo s a).io = s.io := rfl
@[simp] theorem jumpTo_inService (s : State) (a : PcAddr) : (jumpTo s a).inService = s.inService := rfl
@[simp] theorem jumpTo_diskBusy (s : State) (a : PcAddr) : (jumpTo s a).diskBusy = s.diskBusy := rfl
@[simp] theorem jumpTo_diskDone (s : State) (a : PcAddr) : (jumpTo s a).diskDone = s.diskDone := rfl
@[simp] theorem jumpTo_cycle (s : State) (a : PcAddr) : (jumpTo s a).cycle = s.cycle := rfl
@[simp] theorem jumpTo_pcSet (s : State) (a : PcAddr) : (jumpTo s a).pcSet = true := rfl
@[simp] theorem jumpTo_halted (s : State) (a : PcAddr) : (jumpTo s a).halted = s.halted := rfl
@[simp] theorem jumpTo_schedIdx (s : State) (a : PcAddr) : (jumpTo s a).schedIdx = s.schedIdx := rfl
@[simp] theorem jumpTo_imem (s : State) (a : PcAddr) : (jumpTo s a).imem = s.imem := rfl
@[simp] theorem jumpTo_dmem (s : State) (a : PcAddr) : (jumpTo s a).dmem = s.dmem := rfl
@[simp] theorem jumpTo_disk (s : State) (a : PcAddr) : (jumpTo s a).disk = s.disk := rfl
@[simp] theorem jumpTo_fb (s : State) (a : PcAddr) : (jumpTo s a).fb = s.fb := rfl
@[simp] theorem jumpTo_cfg (s : State) (a : PcAddr) : (jumpTo s a).cfg = s.cfg := rfl
@[simp] theorem jumpTo_events (s : State) (a : PcAddr) : (jumpTo s a).events = s.events := rfl

/-! ### emit -/

@[simp] theorem emit_regs (s : State) (e : Event) : (emit s e).regs = s.regs := rfl
@[simp] theorem emit_pc (s : State) (e : Event) : (emit s e).pc = s.pc := rfl
@[simp] theorem emit_io (s : State) (e : Event) : (emit s e).io = s.io := rfl
@[simp] theorem emit_inService (s : State) (e : Event) : (emit s e).inService = s.inService := rfl
@[simp] theorem emit_diskBusy (s : State) (e : Event) : (emit s e).diskBusy = s.diskBusy := rfl
@[simp] theorem emit_diskDone (s : State) (e : Event) : (emit s e).diskDone = s.diskDone := rfl
@[simp] theorem emit_cycle (s : State) (e : Event) : (emit s e).cycle = s.cycle := rfl
@[simp] theorem emit_pcSet (s : State) (e : Event) : (emit s e).pcSet = s.pcSet := rfl
@[simp] theorem emit_halted (s : State) (e : Event) : (emit s e).halted = s.halted := rfl
@[simp] theorem emit_schedIdx (s : State) (e : Event) : (emit s e).schedIdx = s.schedIdx := rfl
@[simp] theorem emit_imem (s : State) (e : Event) : (emit s e).imem = s.imem := rfl
@[simp] theorem emit_dmem (s : State) (e : Event) : (emit s e).dmem = s.dmem := rfl
@[simp] theorem emit_disk (s : State) (e : Event) : (emit s e).disk = s.disk := rfl
@[simp] theorem emit_fb (s : State) (e : Event) : (emit s e).fb = s.fb := rfl
@[simp] theorem emit_cfg (s : State) (e : Event) : (emit s e).cfg = s.cfg := rfl
@[simp] theorem emit_events (s : State) (e : Event) : (emit s e).events = s.events ++ [e] := rfl

/-! ### enterInterrupt -/

@[simp] theorem enterInterrupt_regs (s : State) : (enterInterrupt s).regs = s.regs := rfl
@[simp] theorem enterInterrupt_pc (s : State) : (enterInterrupt s).pc = low12 (readIo s irqhandler) := rfl
@[simp] theorem enterInterrupt_io (s : State) : (enterInterrupt s).io = (writeIo s irqreturn (zext12 s.pc)).io := rfl
@[simp] theorem enterInterrupt_inService (s : State) : (enterInterrupt s).inService = true := rfl
@[simp] theorem enterInterrupt_diskBusy (s : State) : (enterInterrupt s).diskBusy = s.diskBusy := rfl
@[simp] theorem enterInterrupt_diskDone (s : State) : (enterInterrupt s).diskDone = s.diskDone := rfl
@[simp] theorem enterInterrupt_cycle (s : State) : (enterInterrupt s).cycle = s.cycle := rfl
@[simp] theorem enterInterrupt_pcSet (s : State) : (enterInterrupt s).pcSet = s.pcSet := rfl
@[simp] theorem enterInterrupt_halted (s : State) : (enterInterrupt s).halted = s.halted := rfl
@[simp] theorem enterInterrupt_schedIdx (s : State) : (enterInterrupt s).schedIdx = s.schedIdx := rfl
@[simp] theorem enterInterrupt_imem (s : State) : (enterInterrupt s).imem = s.imem := rfl
@[simp] theorem enterInterrupt_dmem (s : State) : (enterInterrupt s).dmem = s.dmem := rfl
@[simp] theorem enterInterrupt_disk (s : State) : (enterInterrupt s).disk = s.disk := rfl
@[simp] theorem enterInterrupt_fb (s : State) : (enterInterrupt s).fb = s.fb := rfl
@[simp] theorem enterInterrupt_cfg (s : State) : (enterInterrupt s).cfg = s.cfg := rfl
@[simp] theorem enterInterrupt_events (s : State) : (enterInterrupt s).events = s.events := rfl

/-! ### returnFromInterrupt -/

@[simp] theorem returnFromInterrupt_regs (s : State) : (returnFromInterrupt s).regs = s.regs := rfl
@[simp] theorem returnFromInterrupt_pc (s : State) : (returnFromInterrupt s).pc = low12 (readIo s irqreturn) := rfl
@[simp] theorem returnFromInterrupt_io (s : State) : (returnFromInterrupt s).io = s.io := rfl
@[simp] theorem returnFromInterrupt_inService (s : State) : (returnFromInterrupt s).inService = false := rfl
@[simp] theorem returnFromInterrupt_diskBusy (s : State) : (returnFromInterrupt s).diskBusy = s.diskBusy := rfl
@[simp] theorem returnFromInterrupt_diskDone (s : State) : (returnFromInterrupt s).diskDone = s.diskDone := rfl
@[simp] theorem returnFromInterrupt_cycle (s : State) : (returnFromInterrupt s).cycle = s.cycle := rfl
@[simp] theorem returnFromInterrupt_pcSet (s : State) : (returnFromInterrupt s).pcSet = true := rfl
@[simp] theorem returnFromInterrupt_halted (s : State) : (returnFromInterrupt s).halted = s.halted := rfl
@[simp] theorem returnFromInterrupt_schedIdx (s : State) : (returnFromInterrupt s).schedIdx = s.schedIdx := rfl
@[simp] theorem returnFromInterrupt_imem (s : State) : (returnFromInterrupt s).imem = s.imem := rfl
@[simp] theorem returnFromInterrupt_dmem (s : State) : (returnFromInterrupt s).dmem = s.dmem := rfl
@[simp] theorem returnFromInterrupt_disk (s : State) : (returnFromInterrupt s).disk = s.disk := rfl
@[simp] theorem returnFromInterrupt_fb (s : State) : (returnFromInterrupt s).fb = s.fb := rfl
@[simp] theorem returnFromInterrupt_cfg (s : State) : (returnFromInterrupt s).cfg = s.cfg := rfl
@[simp] theorem returnFromInterrupt_events (s : State) : (returnFromInterrupt s).events = s.events := rfl

/-! ### Reading back a register -/

/-- R21: R0 reads 0. -/
@[simp] theorem readReg_zero (s : State) : readReg s 0#4 = 0#32 := rfl

/-- R21: a write to R0 changes nothing. -/
@[simp] theorem writeReg_zero (s : State) (v : Word) : writeReg s 0#4 v = s := rfl

/-- A register read depends on the register file only. -/
theorem readReg_congr {s t : State} (h : t.regs = s.regs) (r : RegIdx) : readReg t r = readReg s r := by
  simp only [readReg, h]

/-- What every register reads after a register write. -/
theorem readReg_writeReg (s : State) (r q : RegIdx) (v : Word) :
    readReg (writeReg s r v) q = if q = r then (if r = 0#4 then 0#32 else v) else readReg s q := by
  by_cases hr : r = 0#4
  · subst hr
    by_cases hq : q = 0#4 <;> simp [hq]
  · by_cases hqr : q = r
    · subst hqr; simp [readReg, writeReg, hr]
    · have : ¬ r.toNat = q.toNat := fun h => hqr (BitVec.eq_of_toNat_eq h.symm)
      simp [readReg, writeReg, hr, hqr, this]

@[simp] theorem readReg_writeReg_same (s : State) (r : RegIdx) (v : Word) (h : r ≠ 0#4) :
    readReg (writeReg s r v) r = v := by
  simp [readReg_writeReg, h]

@[simp] theorem readReg_writeReg_other (s : State) (r q : RegIdx) (v : Word) (h : q ≠ r) :
    readReg (writeReg s r v) q = readReg s q := by
  simp [readReg_writeReg, h]

/-- What every I/O register reads after an I/O write (R68). -/
theorem readIo_writeIo (s : State) (n m : IoIdx) (v : Word) :
    readIo (writeIo s n v) m = if m = n then v else readIo s m := by
  by_cases h : m = n
  · subst h; simp [readIo, writeIo]
  · have : ¬ n.val = m.val := fun e => h (Fin.ext e.symm)
    simp [readIo, writeIo, h, this]

@[simp] theorem readIo_writeIo_same (s : State) (n : IoIdx) (v : Word) : readIo (writeIo s n v) n = v := by
  simp [readIo_writeIo]

@[simp] theorem readIo_writeIo_other (s : State) (n m : IoIdx) (v : Word) (h : m ≠ n) :
    readIo (writeIo s n v) m = readIo s m := by
  simp [readIo_writeIo, h]

/-- An I/O read depends on the bank only. -/
theorem readIo_congr {s t : State} (h : t.io = s.io) (n : IoIdx) : readIo t n = readIo s n := by
  simp only [readIo, h]

@[simp] theorem readIo_writeReg (s : State) (r : RegIdx) (v : Word) (m : IoIdx) : readIo (writeReg s r v) m = readIo s m := rfl

@[simp] theorem readData_writeReg (s : State) (r : RegIdx) (v : Word) (q : Nat) : readData (writeReg s r v) q = readData s q := rfl

@[simp] theorem readReg_writeIo (s : State) (n : IoIdx) (v : Word) (q : RegIdx) : readReg (writeIo s n v) q = readReg s q := rfl

@[simp] theorem readData_writeIo (s : State) (n : IoIdx) (v : Word) (q : Nat) : readData (writeIo s n v) q = readData s q := rfl

@[simp] theorem readReg_writeData (s : State) (a : Nat) (v : Word) (q : RegIdx) : readReg (writeData s a v) q = readReg s q := rfl

@[simp] theorem readIo_writeData (s : State) (a : Nat) (v : Word) (m : IoIdx) : readIo (writeData s a v) m = readIo s m := rfl

@[simp] theorem readReg_jumpTo (s : State) (a : PcAddr) (q : RegIdx) : readReg (jumpTo s a) q = readReg s q := rfl

@[simp] theorem readIo_jumpTo (s : State) (a : PcAddr) (m : IoIdx) : readIo (jumpTo s a) m = readIo s m := rfl

@[simp] theorem readData_jumpTo (s : State) (a : PcAddr) (q : Nat) : readData (jumpTo s a) q = readData s q := rfl

@[simp] theorem readReg_emit (s : State) (e : Event) (q : RegIdx) : readReg (emit s e) q = readReg s q := rfl

@[simp] theorem readIo_emit (s : State) (e : Event) (m : IoIdx) : readIo (emit s e) m = readIo s m := rfl

@[simp] theorem readData_emit (s : State) (e : Event) (q : Nat) : readData (emit s e) q = readData s q := rfl

@[simp] theorem readReg_enterInterrupt (s : State) (q : RegIdx) : readReg (enterInterrupt s) q = readReg s q := rfl

@[simp] theorem readData_enterInterrupt (s : State) (q : Nat) : readData (enterInterrupt s) q = readData s q := rfl

@[simp] theorem readReg_returnFromInterrupt (s : State) (q : RegIdx) : readReg (returnFromInterrupt s) q = readReg s q := rfl

@[simp] theorem readIo_returnFromInterrupt (s : State) (m : IoIdx) : readIo (returnFromInterrupt s) m = readIo s m := rfl

@[simp] theorem readData_returnFromInterrupt (s : State) (q : Nat) : readData (returnFromInterrupt s) q = readData s q := rfl

/-- Interrupt entry writes `irqreturn` and no other I/O register (R222). -/
theorem readIo_enterInterrupt (s : State) (n : IoIdx) :
    readIo (enterInterrupt s) n = if n = irqreturn then zext12 s.pc else readIo s n :=
  (readIo_congr rfl n).trans (readIo_writeIo s irqreturn n (zext12 s.pc))

end Sys2Proof.Machine
end

