-- ==== Sys2Proof/Laws/Ops.lean ====
section
/-! SUPPORT. What each shared operation can do, said once: when it goes on, in which state. -/

namespace Sys2Proof.Machine

section
variable {α β : Type} (k : α → Host.Outcome β Fault Refusal)

@[simp] theorem andThen_next (a : α) : andThen (.next a) k = k a := rfl
@[simp] theorem andThen_fault (r : Fault) : andThen (.fault r) k = .fault r := rfl
@[simp] theorem andThen_refused (r : Refusal) : andThen (.refused r) k = .refused r := rfl

end

/-- A sequence goes on exactly when both parts do. -/
theorem andThen_eq_next {α β : Type} {o : Host.Outcome α Fault Refusal} {k : α → Host.Outcome β Fault Refusal}
    {b : β} : andThen o k = .next b ↔ ∃ a, o = .next a ∧ k a = .next b := by
  cases o <;> simp

theorem next_inj {s t : State} : (Host.Outcome.next s : Result) = .next t ↔ s = t := by
  constructor
  · intro h; injection h
  · rintro rfl; rfl

/-! ### The address check -/

theorem classify_overflow {limit : Nat} {sum : Int} (h : sum < -2 ^ 31) : classify limit sum = .overflow := by
  simp only [classify, h, if_true]

theorem classify_negative {limit : Nat} {sum : Int} (h : -2 ^ 31 ≤ sum) (h0 : sum < 0) :
    classify limit sum = .negative := by
  simp only [classify, not_lt.mpr h, h0, if_true, if_false]

theorem classify_inRange {limit : Nat} (a : Fin limit) : classify limit (a.val : Int) = .inRange a := by
  have h1 : ¬ ((a.val : Int) < -2 ^ 31) := by omega
  have h2 : ¬ ((a.val : Int) < 0) := by omega
  simp only [classify, h1, h2, if_false, Int.toNat_natCast, a.isLt, dif_pos]

theorem classify_outOfRange {limit : Nat} {sum : Int} (h : (limit : Int) ≤ sum) :
    classify limit sum = .outOfRange := by
  have h1 : ¬ (sum < -2 ^ 31) := by omega
  have h2 : ¬ (sum < 0) := by omega
  have h3 : ¬ (sum.toNat < limit) := by omega
  simp only [classify, h1, h2, h3, if_false, dif_neg, not_false_eq_true]

/-- `classify` names an address only when the sum is that address. -/
theorem eq_of_classify_inRange {limit : Nat} {sum : Int} {a : Fin limit}
    (h : classify limit sum = .inRange a) : sum = (a.val : Int) := by
  unfold classify at h
  split at h
  · cases h
  · split at h
    · cases h
    · split at h
      · injection h with h; subst h; simp only; omega
      · cases h

theorem neg_of_classify_negative {limit : Nat} {sum : Int} (h : classify limit sum = .negative) :
    -2 ^ 31 ≤ sum ∧ sum < 0 := by
  unfold classify at h
  split at h
  · cases h
  · split at h
    · exact ⟨by omega, by assumption⟩
    · split at h <;> cases h

/-- Everything an address-checked instruction can do when it goes on (R65, R66). -/
theorem checkedAccess_eq_next {limit : Nat} {f : Fields} {s t : State} {access : Fin limit → Result} :
    checkedAccess limit f s access = .next t ↔
      (-2 ^ 31 ≤ effectiveAddress f s ∧ effectiveAddress f s < 0 ∧
        t = emit s (.diagNegativeAddress (effectiveAddress f s))) ∨
      ∃ a : Fin limit, effectiveAddress f s = (a.val : Int) ∧ access a = .next t := by
  constructor
  · intro h
    unfold checkedAccess at h
    split at h
    · cases h
    · next hc =>
      exact .inl ⟨(neg_of_classify_negative hc).1, (neg_of_classify_negative hc).2, (next_inj.mp h).symm⟩
    · next a hc => exact .inr ⟨a, eq_of_classify_inRange hc, h⟩
    · cases h
  · rintro (⟨h1, h2, rfl⟩ | ⟨a, h, ha⟩)
    · simp only [checkedAccess, classify_negative h1 h2]
    · simp only [checkedAccess, h, classify_inRange, ha]

theorem checkedAccess_inRange {limit : Nat} {f : Fields} {s : State} {access : Fin limit → Result} (a : Fin limit)
    (h : effectiveAddress f s = (a.val : Int)) : checkedAccess limit f s access = access a := by
  simp only [checkedAccess, h, classify_inRange]

/-! ### Instructions -/

@[simp] theorem writeResult_eq (s : State) (rd : RegIdx) (v : Word) :
    writeResult s rd v = .next (writeReg s rd v) := rfl

/-- Everything an instruction can do when it goes on: a register write, a store, an I/O write or read with its
event, a jump with or without a link, a return, the halt flag, the diagnostic of a negative address, or nothing. -/
inductive Effect (i : Instr) (s : State) : State → Prop where
  | nothing : Effect i s s
  | register (v : Word) (h : ∃ f, i = .add f ∨ i = .sub f ∨ i = .mac f ∨ i = .and f ∨ i = .or f ∨ i = .xor f ∨
      i = .sll f ∨ i = .sra f ∨ i = .srl f ∨ i = .lw f) : Effect i s (writeReg s i.fields.rd v)
  | jump (target : PcAddr) (h : ∃ f, i = .beq f ∨ i = .bne f ∨ i = .blt f ∨ i = .bgt f ∨ i = .ble f ∨
      i = .bge f) : Effect i s (jumpTo s target)
  | link (f : Fields) (h : i = .jal f) : Effect i s
      (jumpTo (writeReg s f.rd (linkValue s)) (low12 (readReg (writeReg s f.rd (linkValue s)) f.rm)))
  | store (f : Fields) (a : Fin s.cfg.dmemWords) (v : Word) (h : i = .sw f)
      (ha : effectiveAddress f s = (a.val : Int)) : Effect i s (writeData s a v)
  | skip (f : Fields) (h : i = .lw f ∨ i = .sw f ∨ i = .input f ∨ i = .output f)
      (hlow : -2 ^ 31 ≤ effectiveAddress f s) (hneg : effectiveAddress f s < 0) :
      Effect i s (emit s (.diagNegativeAddress (effectiveAddress f s)))
  | readIo (f : Fields) (n : IoIdx) (h : i = .input f) (hn : effectiveAddress f s = (n.val : Int)) :
      Effect i s (emit (writeReg s f.rd (readIo s n)) (.hwAccess s.cycle n .read (readIo s n)))
  | writeIo (f : Fields) (n : IoIdx) (h : i = .output f) (hn : effectiveAddress f s = (n.val : Int)) :
      Effect i s (emit (writeIo s n (readReg s f.rm)) (.hwAccess s.cycle n .write (readReg s f.rm)))
  | giveBack (f : Fields) (h : i = .reti f) : Effect i s (returnFromInterrupt s)
  | halt (f : Fields) (h : i = .halt f) : Effect i s { s with halted := true }

/-- A conditional branch goes on, taken or not (R160). -/
theorem branchOn_effect {i : Instr} {cond : Int → Int → Bool} {f : Fields} {s t : State}
    (hi : ∃ f, i = .beq f ∨ i = .bne f ∨ i = .blt f ∨ i = .bgt f ∨ i = .ble f ∨ i = .bge f)
    (h : branchOn cond f s = .next t) : Effect i s t := by
  unfold branchOn at h
  rw [next_inj] at h
  subst h
  split
  · exact .jump _ hi
  · exact .nothing

/-- The inversion lemma of `exec`: every claim about what an instruction leaves unchanged starts from it. -/
theorem exec_effect {i : Instr} {s t : State} (h : exec i s = .next t) : Effect i s t := by
  cases i with
  | add f | sub f | mac f | and f | or f | xor f | sll f | sra f | srl f =>
    rw [← next_inj.mp h]; exact .register _ (by simp)
  | beq f | bne f | blt f | bgt f | ble f | bge f => exact branchOn_effect (by simp) h
  | jal f => rw [← next_inj.mp h]; exact .link f rfl
  | lw f =>
    rcases checkedAccess_eq_next.mp h with ⟨h1, h2, rfl⟩ | ⟨a, _, ha⟩
    · exact .skip f (by simp) h1 h2
    · rw [← next_inj.mp ha]; exact .register _ (by simp)
  | sw f =>
    rcases checkedAccess_eq_next.mp h with ⟨h1, h2, rfl⟩ | ⟨a, hs, ha⟩
    · exact .skip f (by simp) h1 h2
    · rw [← next_inj.mp ha]; exact .store f a _ rfl hs
  | reti f => rw [← next_inj.mp h]; exact .giveBack f rfl
  | input f =>
    rcases checkedAccess_eq_next.mp h with ⟨h1, h2, rfl⟩ | ⟨n, hs, hn⟩
    · exact .skip f (by simp) h1 h2
    · rw [← next_inj.mp hn]; exact .readIo f n rfl hs
  | output f =>
    rcases checkedAccess_eq_next.mp h with ⟨h1, h2, rfl⟩ | ⟨n, hs, hn⟩
    · exact .skip f (by simp) h1 h2
    · rw [← next_inj.mp hn]; exact .writeIo f n rfl hs
  | halt f => rw [← next_inj.mp h]; exact .halt f rfl

end Sys2Proof.Machine
end

