-- ==== Sys2Proof/Laws/Cycle.lean ====
section
/-! SUPPORT. What each stage of the cycle leaves in each field, what it reads back, and the inversion lemma of the
step. -/

namespace Sys2Proof.Machine

/-! ### stageStart -/

@[simp] theorem stageStart_regs (s : State) : (stageStart s).regs = s.regs := rfl
@[simp] theorem stageStart_pc (s : State) : (stageStart s).pc = s.pc := rfl
@[simp] theorem stageStart_io (s : State) : (stageStart s).io = s.io := rfl
@[simp] theorem stageStart_inService (s : State) : (stageStart s).inService = s.inService := rfl
@[simp] theorem stageStart_diskBusy (s : State) : (stageStart s).diskBusy = s.diskBusy := rfl
@[simp] theorem stageStart_diskDone (s : State) : (stageStart s).diskDone = s.diskDone := rfl
@[simp] theorem stageStart_cycle (s : State) : (stageStart s).cycle = s.cycle := rfl
@[simp] theorem stageStart_halted (s : State) : (stageStart s).halted = s.halted := rfl
@[simp] theorem stageStart_schedIdx (s : State) : (stageStart s).schedIdx = s.schedIdx := rfl
@[simp] theorem stageStart_imem (s : State) : (stageStart s).imem = s.imem := rfl
@[simp] theorem stageStart_dmem (s : State) : (stageStart s).dmem = s.dmem := rfl
@[simp] theorem stageStart_disk (s : State) : (stageStart s).disk = s.disk := rfl
@[simp] theorem stageStart_fb (s : State) : (stageStart s).fb = s.fb := rfl
@[simp] theorem stageStart_cfg (s : State) : (stageStart s).cfg = s.cfg := rfl
@[simp] theorem stageStart_pcSet (s : State) : (stageStart s).pcSet = false := rfl
@[simp] theorem stageStart_events (s : State) : (stageStart s).events = [] := rfl

/-! ### pendTimer -/

@[simp] theorem pendTimer_regs (s : State) : (pendTimer s).regs = s.regs := by unfold pendTimer; split <;> rfl
@[simp] theorem pendTimer_pc (s : State) : (pendTimer s).pc = s.pc := by unfold pendTimer; split <;> rfl
@[simp] theorem pendTimer_inService (s : State) : (pendTimer s).inService = s.inService := by unfold pendTimer; split <;> rfl
@[simp] theorem pendTimer_diskBusy (s : State) : (pendTimer s).diskBusy = s.diskBusy := by unfold pendTimer; split <;> rfl
@[simp] theorem pendTimer_diskDone (s : State) : (pendTimer s).diskDone = s.diskDone := by unfold pendTimer; split <;> rfl
@[simp] theorem pendTimer_cycle (s : State) : (pendTimer s).cycle = s.cycle := by unfold pendTimer; split <;> rfl
@[simp] theorem pendTimer_pcSet (s : State) : (pendTimer s).pcSet = s.pcSet := by unfold pendTimer; split <;> rfl
@[simp] theorem pendTimer_halted (s : State) : (pendTimer s).halted = s.halted := by unfold pendTimer; split <;> rfl
@[simp] theorem pendTimer_schedIdx (s : State) : (pendTimer s).schedIdx = s.schedIdx := by unfold pendTimer; split <;> rfl
@[simp] theorem pendTimer_imem (s : State) : (pendTimer s).imem = s.imem := by unfold pendTimer; split <;> rfl
@[simp] theorem pendTimer_dmem (s : State) : (pendTimer s).dmem = s.dmem := by unfold pendTimer; split <;> rfl
@[simp] theorem pendTimer_disk (s : State) : (pendTimer s).disk = s.disk := by unfold pendTimer; split <;> rfl
@[simp] theorem pendTimer_fb (s : State) : (pendTimer s).fb = s.fb := by unfold pendTimer; split <;> rfl
@[simp] theorem pendTimer_cfg (s : State) : (pendTimer s).cfg = s.cfg := by unfold pendTimer; split <;> rfl
@[simp] theorem pendTimer_events (s : State) : (pendTimer s).events = s.events := by unfold pendTimer; split <;> rfl

/-! ### pendExternal -/

@[simp] theorem pendExternal_regs (s : State) : (pendExternal s).regs = s.regs := by unfold pendExternal; split <;> rfl
@[simp] theorem pendExternal_pc (s : State) : (pendExternal s).pc = s.pc := by unfold pendExternal; split <;> rfl
@[simp] theorem pendExternal_inService (s : State) : (pendExternal s).inService = s.inService := by unfold pendExternal; split <;> rfl
@[simp] theorem pendExternal_diskBusy (s : State) : (pendExternal s).diskBusy = s.diskBusy := by unfold pendExternal; split <;> rfl
@[simp] theorem pendExternal_diskDone (s : State) : (pendExternal s).diskDone = s.diskDone := by unfold pendExternal; split <;> rfl
@[simp] theorem pendExternal_cycle (s : State) : (pendExternal s).cycle = s.cycle := by unfold pendExternal; split <;> rfl
@[simp] theorem pendExternal_pcSet (s : State) : (pendExternal s).pcSet = s.pcSet := by unfold pendExternal; split <;> rfl
@[simp] theorem pendExternal_halted (s : State) : (pendExternal s).halted = s.halted := by unfold pendExternal; split <;> rfl
@[simp] theorem pendExternal_imem (s : State) : (pendExternal s).imem = s.imem := by unfold pendExternal; split <;> rfl
@[simp] theorem pendExternal_dmem (s : State) : (pendExternal s).dmem = s.dmem := by unfold pendExternal; split <;> rfl
@[simp] theorem pendExternal_disk (s : State) : (pendExternal s).disk = s.disk := by unfold pendExternal; split <;> rfl
@[simp] theorem pendExternal_fb (s : State) : (pendExternal s).fb = s.fb := by unfold pendExternal; split <;> rfl
@[simp] theorem pendExternal_cfg (s : State) : (pendExternal s).cfg = s.cfg := by unfold pendExternal; split <;> rfl
@[simp] theorem pendExternal_events (s : State) : (pendExternal s).events = s.events := by unfold pendExternal; split <;> rfl

/-! ### stageVector -/

@[simp] theorem stageVector_regs (s : State) : (stageVector s).regs = s.regs := by unfold stageVector; split <;> rfl
@[simp] theorem stageVector_diskBusy (s : State) : (stageVector s).diskBusy = s.diskBusy := by unfold stageVector; split <;> rfl
@[simp] theorem stageVector_diskDone (s : State) : (stageVector s).diskDone = s.diskDone := by unfold stageVector; split <;> rfl
@[simp] theorem stageVector_cycle (s : State) : (stageVector s).cycle = s.cycle := by unfold stageVector; split <;> rfl
@[simp] theorem stageVector_pcSet (s : State) : (stageVector s).pcSet = s.pcSet := by unfold stageVector; split <;> rfl
@[simp] theorem stageVector_halted (s : State) : (stageVector s).halted = s.halted := by unfold stageVector; split <;> rfl
@[simp] theorem stageVector_schedIdx (s : State) : (stageVector s).schedIdx = s.schedIdx := by unfold stageVector; split <;> rfl
@[simp] theorem stageVector_imem (s : State) : (stageVector s).imem = s.imem := by unfold stageVector; split <;> rfl
@[simp] theorem stageVector_dmem (s : State) : (stageVector s).dmem = s.dmem := by unfold stageVector; split <;> rfl
@[simp] theorem stageVector_disk (s : State) : (stageVector s).disk = s.disk := by unfold stageVector; split <;> rfl
@[simp] theorem stageVector_fb (s : State) : (stageVector s).fb = s.fb := by unfold stageVector; split <;> rfl
@[simp] theorem stageVector_cfg (s : State) : (stageVector s).cfg = s.cfg := by unfold stageVector; split <;> rfl
@[simp] theorem stageVector_events (s : State) : (stageVector s).events = s.events := by unfold stageVector; split <;> rfl

/-! ### stageTrace -/

@[simp] theorem stageTrace_regs (w : InstrWord) (s : State) : (stageTrace w s).regs = s.regs := rfl
@[simp] theorem stageTrace_pc (w : InstrWord) (s : State) : (stageTrace w s).pc = s.pc := rfl
@[simp] theorem stageTrace_io (w : InstrWord) (s : State) : (stageTrace w s).io = s.io := rfl
@[simp] theorem stageTrace_inService (w : InstrWord) (s : State) : (stageTrace w s).inService = s.inService := rfl
@[simp] theorem stageTrace_diskBusy (w : InstrWord) (s : State) : (stageTrace w s).diskBusy = s.diskBusy := rfl
@[simp] theorem stageTrace_diskDone (w : InstrWord) (s : State) : (stageTrace w s).diskDone = s.diskDone := rfl
@[simp] theorem stageTrace_cycle (w : InstrWord) (s : State) : (stageTrace w s).cycle = s.cycle := rfl
@[simp] theorem stageTrace_pcSet (w : InstrWord) (s : State) : (stageTrace w s).pcSet = s.pcSet := rfl
@[simp] theorem stageTrace_halted (w : InstrWord) (s : State) : (stageTrace w s).halted = s.halted := rfl
@[simp] theorem stageTrace_schedIdx (w : InstrWord) (s : State) : (stageTrace w s).schedIdx = s.schedIdx := rfl
@[simp] theorem stageTrace_imem (w : InstrWord) (s : State) : (stageTrace w s).imem = s.imem := rfl
@[simp] theorem stageTrace_dmem (w : InstrWord) (s : State) : (stageTrace w s).dmem = s.dmem := rfl
@[simp] theorem stageTrace_disk (w : InstrWord) (s : State) : (stageTrace w s).disk = s.disk := rfl
@[simp] theorem stageTrace_fb (w : InstrWord) (s : State) : (stageTrace w s).fb = s.fb := rfl
@[simp] theorem stageTrace_cfg (w : InstrWord) (s : State) : (stageTrace w s).cfg = s.cfg := rfl

/-! ### stageReload -/

@[simp] theorem stageReload_pc (w : InstrWord) (s : State) : (stageReload w s).pc = s.pc := rfl
@[simp] theorem stageReload_io (w : InstrWord) (s : State) : (stageReload w s).io = s.io := rfl
@[simp] theorem stageReload_inService (w : InstrWord) (s : State) : (stageReload w s).inService = s.inService := rfl
@[simp] theorem stageReload_diskBusy (w : InstrWord) (s : State) : (stageReload w s).diskBusy = s.diskBusy := rfl
@[simp] theorem stageReload_diskDone (w : InstrWord) (s : State) : (stageReload w s).diskDone = s.diskDone := rfl
@[simp] theorem stageReload_cycle (w : InstrWord) (s : State) : (stageReload w s).cycle = s.cycle := rfl
@[simp] theorem stageReload_pcSet (w : InstrWord) (s : State) : (stageReload w s).pcSet = s.pcSet := rfl
@[simp] theorem stageReload_halted (w : InstrWord) (s : State) : (stageReload w s).halted = s.halted := rfl
@[simp] theorem stageReload_schedIdx (w : InstrWord) (s : State) : (stageReload w s).schedIdx = s.schedIdx := rfl
@[simp] theorem stageReload_imem (w : InstrWord) (s : State) : (stageReload w s).imem = s.imem := rfl
@[simp] theorem stageReload_dmem (w : InstrWord) (s : State) : (stageReload w s).dmem = s.dmem := rfl
@[simp] theorem stageReload_disk (w : InstrWord) (s : State) : (stageReload w s).disk = s.disk := rfl
@[simp] theorem stageReload_fb (w : InstrWord) (s : State) : (stageReload w s).fb = s.fb := rfl
@[simp] theorem stageReload_cfg (w : InstrWord) (s : State) : (stageReload w s).cfg = s.cfg := rfl
@[simp] theorem stageReload_events (w : InstrWord) (s : State) : (stageReload w s).events = s.events := rfl

/-! ### logChange -/

@[simp] theorem logChange_regs (before s : State) (n : IoIdx) (entry : Nat → Word → Event) : (logChange before s n entry).regs = s.regs := by unfold logChange; split <;> rfl
@[simp] theorem logChange_pc (before s : State) (n : IoIdx) (entry : Nat → Word → Event) : (logChange before s n entry).pc = s.pc := by unfold logChange; split <;> rfl
@[simp] theorem logChange_io (before s : State) (n : IoIdx) (entry : Nat → Word → Event) : (logChange before s n entry).io = s.io := by unfold logChange; split <;> rfl
@[simp] theorem logChange_inService (before s : State) (n : IoIdx) (entry : Nat → Word → Event) : (logChange before s n entry).inService = s.inService := by unfold logChange; split <;> rfl
@[simp] theorem logChange_diskBusy (before s : State) (n : IoIdx) (entry : Nat → Word → Event) : (logChange before s n entry).diskBusy = s.diskBusy := by unfold logChange; split <;> rfl
@[simp] theorem logChange_diskDone (before s : State) (n : IoIdx) (entry : Nat → Word → Event) : (logChange before s n entry).diskDone = s.diskDone := by unfold logChange; split <;> rfl
@[simp] theorem logChange_cycle (before s : State) (n : IoIdx) (entry : Nat → Word → Event) : (logChange before s n entry).cycle = s.cycle := by unfold logChange; split <;> rfl
@[simp] theorem logChange_pcSet (before s : State) (n : IoIdx) (entry : Nat → Word → Event) : (logChange before s n entry).pcSet = s.pcSet := by unfold logChange; split <;> rfl
@[simp] theorem logChange_halted (before s : State) (n : IoIdx) (entry : Nat → Word → Event) : (logChange before s n entry).halted = s.halted := by unfold logChange; split <;> rfl
@[simp] theorem logChange_schedIdx (before s : State) (n : IoIdx) (entry : Nat → Word → Event) : (logChange before s n entry).schedIdx = s.schedIdx := by unfold logChange; split <;> rfl
@[simp] theorem logChange_imem (before s : State) (n : IoIdx) (entry : Nat → Word → Event) : (logChange before s n entry).imem = s.imem := by unfold logChange; split <;> rfl
@[simp] theorem logChange_dmem (before s : State) (n : IoIdx) (entry : Nat → Word → Event) : (logChange before s n entry).dmem = s.dmem := by unfold logChange; split <;> rfl
@[simp] theorem logChange_disk (before s : State) (n : IoIdx) (entry : Nat → Word → Event) : (logChange before s n entry).disk = s.disk := by unfold logChange; split <;> rfl
@[simp] theorem logChange_fb (before s : State) (n : IoIdx) (entry : Nat → Word → Event) : (logChange before s n entry).fb = s.fb := by unfold logChange; split <;> rfl
@[simp] theorem logChange_cfg (before s : State) (n : IoIdx) (entry : Nat → Word → Event) : (logChange before s n entry).cfg = s.cfg := by unfold logChange; split <;> rfl

/-! ### diskTransfer -/

@[simp] theorem diskTransfer_regs (s : State) : (diskTransfer s).regs = s.regs := by unfold diskTransfer; split <;> rfl
@[simp] theorem diskTransfer_pc (s : State) : (diskTransfer s).pc = s.pc := by unfold diskTransfer; split <;> rfl
@[simp] theorem diskTransfer_io (s : State) : (diskTransfer s).io = s.io := by unfold diskTransfer; split <;> rfl
@[simp] theorem diskTransfer_inService (s : State) : (diskTransfer s).inService = s.inService := by unfold diskTransfer; split <;> rfl
@[simp] theorem diskTransfer_diskBusy (s : State) : (diskTransfer s).diskBusy = s.diskBusy := by unfold diskTransfer; split <;> rfl
@[simp] theorem diskTransfer_diskDone (s : State) : (diskTransfer s).diskDone = s.diskDone := by unfold diskTransfer; split <;> rfl
@[simp] theorem diskTransfer_cycle (s : State) : (diskTransfer s).cycle = s.cycle := by unfold diskTransfer; split <;> rfl
@[simp] theorem diskTransfer_pcSet (s : State) : (diskTransfer s).pcSet = s.pcSet := by unfold diskTransfer; split <;> rfl
@[simp] theorem diskTransfer_halted (s : State) : (diskTransfer s).halted = s.halted := by unfold diskTransfer; split <;> rfl
@[simp] theorem diskTransfer_schedIdx (s : State) : (diskTransfer s).schedIdx = s.schedIdx := by unfold diskTransfer; split <;> rfl
@[simp] theorem diskTransfer_imem (s : State) : (diskTransfer s).imem = s.imem := by unfold diskTransfer; split <;> rfl
@[simp] theorem diskTransfer_fb (s : State) : (diskTransfer s).fb = s.fb := by unfold diskTransfer; split <;> rfl
@[simp] theorem diskTransfer_cfg (s : State) : (diskTransfer s).cfg = s.cfg := by unfold diskTransfer; split <;> rfl
@[simp] theorem diskTransfer_events (s : State) : (diskTransfer s).events = s.events := by unfold diskTransfer; split <;> rfl

/-! ### diskComplete -/

@[simp] theorem diskComplete_regs (s : State) : (diskComplete s).regs = s.regs := rfl
@[simp] theorem diskComplete_pc (s : State) : (diskComplete s).pc = s.pc := rfl
@[simp] theorem diskComplete_inService (s : State) : (diskComplete s).inService = s.inService := rfl
@[simp] theorem diskComplete_diskDone (s : State) : (diskComplete s).diskDone = s.diskDone := rfl
@[simp] theorem diskComplete_cycle (s : State) : (diskComplete s).cycle = s.cycle := rfl
@[simp] theorem diskComplete_pcSet (s : State) : (diskComplete s).pcSet = s.pcSet := rfl
@[simp] theorem diskComplete_halted (s : State) : (diskComplete s).halted = s.halted := rfl
@[simp] theorem diskComplete_schedIdx (s : State) : (diskComplete s).schedIdx = s.schedIdx := rfl
@[simp] theorem diskComplete_imem (s : State) : (diskComplete s).imem = s.imem := rfl
@[simp] theorem diskComplete_dmem (s : State) : (diskComplete s).dmem = s.dmem := rfl
@[simp] theorem diskComplete_disk (s : State) : (diskComplete s).disk = s.disk := rfl
@[simp] theorem diskComplete_fb (s : State) : (diskComplete s).fb = s.fb := rfl
@[simp] theorem diskComplete_cfg (s : State) : (diskComplete s).cfg = s.cfg := rfl
@[simp] theorem diskComplete_events (s : State) : (diskComplete s).events = s.events := rfl

/-! ### stageTimer -/

@[simp] theorem stageTimer_regs (s : State) : (stageTimer s).regs = s.regs := by unfold stageTimer; split <;> rfl
@[simp] theorem stageTimer_pc (s : State) : (stageTimer s).pc = s.pc := by unfold stageTimer; split <;> rfl
@[simp] theorem stageTimer_inService (s : State) : (stageTimer s).inService = s.inService := by unfold stageTimer; split <;> rfl
@[simp] theorem stageTimer_diskBusy (s : State) : (stageTimer s).diskBusy = s.diskBusy := by unfold stageTimer; split <;> rfl
@[simp] theorem stageTimer_diskDone (s : State) : (stageTimer s).diskDone = s.diskDone := by unfold stageTimer; split <;> rfl
@[simp] theorem stageTimer_cycle (s : State) : (stageTimer s).cycle = s.cycle := by unfold stageTimer; split <;> rfl
@[simp] theorem stageTimer_pcSet (s : State) : (stageTimer s).pcSet = s.pcSet := by unfold stageTimer; split <;> rfl
@[simp] theorem stageTimer_halted (s : State) : (stageTimer s).halted = s.halted := by unfold stageTimer; split <;> rfl
@[simp] theorem stageTimer_schedIdx (s : State) : (stageTimer s).schedIdx = s.schedIdx := by unfold stageTimer; split <;> rfl
@[simp] theorem stageTimer_imem (s : State) : (stageTimer s).imem = s.imem := by unfold stageTimer; split <;> rfl
@[simp] theorem stageTimer_dmem (s : State) : (stageTimer s).dmem = s.dmem := by unfold stageTimer; split <;> rfl
@[simp] theorem stageTimer_disk (s : State) : (stageTimer s).disk = s.disk := by unfold stageTimer; split <;> rfl
@[simp] theorem stageTimer_fb (s : State) : (stageTimer s).fb = s.fb := by unfold stageTimer; split <;> rfl
@[simp] theorem stageTimer_cfg (s : State) : (stageTimer s).cfg = s.cfg := by unfold stageTimer; split <;> rfl
@[simp] theorem stageTimer_events (s : State) : (stageTimer s).events = s.events := by unfold stageTimer; split <;> rfl

/-! ### stageAdvance -/

@[simp] theorem stageAdvance_regs (s : State) : (stageAdvance s).regs = s.regs := by unfold stageAdvance; split <;> rfl
@[simp] theorem stageAdvance_io (s : State) : (stageAdvance s).io = s.io := by unfold stageAdvance; split <;> rfl
@[simp] theorem stageAdvance_inService (s : State) : (stageAdvance s).inService = s.inService := by unfold stageAdvance; split <;> rfl
@[simp] theorem stageAdvance_diskBusy (s : State) : (stageAdvance s).diskBusy = s.diskBusy := by unfold stageAdvance; split <;> rfl
@[simp] theorem stageAdvance_diskDone (s : State) : (stageAdvance s).diskDone = s.diskDone := by unfold stageAdvance; split <;> rfl
@[simp] theorem stageAdvance_cycle (s : State) : (stageAdvance s).cycle = s.cycle := by unfold stageAdvance; split <;> rfl
@[simp] theorem stageAdvance_pcSet (s : State) : (stageAdvance s).pcSet = s.pcSet := by unfold stageAdvance; split <;> rfl
@[simp] theorem stageAdvance_halted (s : State) : (stageAdvance s).halted = s.halted := by unfold stageAdvance; split <;> rfl
@[simp] theorem stageAdvance_schedIdx (s : State) : (stageAdvance s).schedIdx = s.schedIdx := by unfold stageAdvance; split <;> rfl
@[simp] theorem stageAdvance_imem (s : State) : (stageAdvance s).imem = s.imem := by unfold stageAdvance; split <;> rfl
@[simp] theorem stageAdvance_dmem (s : State) : (stageAdvance s).dmem = s.dmem := by unfold stageAdvance; split <;> rfl
@[simp] theorem stageAdvance_disk (s : State) : (stageAdvance s).disk = s.disk := by unfold stageAdvance; split <;> rfl
@[simp] theorem stageAdvance_fb (s : State) : (stageAdvance s).fb = s.fb := by unfold stageAdvance; split <;> rfl
@[simp] theorem stageAdvance_cfg (s : State) : (stageAdvance s).cfg = s.cfg := by unfold stageAdvance; split <;> rfl
@[simp] theorem stageAdvance_events (s : State) : (stageAdvance s).events = s.events := by unfold stageAdvance; split <;> rfl

/-! ### stageClock -/

@[simp] theorem stageClock_regs (s : State) : (stageClock s).regs = s.regs := rfl
@[simp] theorem stageClock_pc (s : State) : (stageClock s).pc = s.pc := rfl
@[simp] theorem stageClock_inService (s : State) : (stageClock s).inService = s.inService := rfl
@[simp] theorem stageClock_diskBusy (s : State) : (stageClock s).diskBusy = s.diskBusy := rfl
@[simp] theorem stageClock_diskDone (s : State) : (stageClock s).diskDone = s.diskDone := rfl
@[simp] theorem stageClock_pcSet (s : State) : (stageClock s).pcSet = s.pcSet := rfl
@[simp] theorem stageClock_halted (s : State) : (stageClock s).halted = s.halted := rfl
@[simp] theorem stageClock_schedIdx (s : State) : (stageClock s).schedIdx = s.schedIdx := rfl
@[simp] theorem stageClock_imem (s : State) : (stageClock s).imem = s.imem := rfl
@[simp] theorem stageClock_dmem (s : State) : (stageClock s).dmem = s.dmem := rfl
@[simp] theorem stageClock_disk (s : State) : (stageClock s).disk = s.disk := rfl
@[simp] theorem stageClock_fb (s : State) : (stageClock s).fb = s.fb := rfl
@[simp] theorem stageClock_cfg (s : State) : (stageClock s).cfg = s.cfg := rfl
@[simp] theorem stageClock_events (s : State) : (stageClock s).events = s.events := rfl
@[simp] theorem stageClock_cycle (s : State) : (stageClock s).cycle = s.cycle + 1 := rfl

/-! ### stagePulseClear -/

@[simp] theorem stagePulseClear_regs (s : State) : (stagePulseClear s).regs = s.regs := rfl
@[simp] theorem stagePulseClear_pc (s : State) : (stagePulseClear s).pc = s.pc := rfl
@[simp] theorem stagePulseClear_inService (s : State) : (stagePulseClear s).inService = s.inService := rfl
@[simp] theorem stagePulseClear_diskBusy (s : State) : (stagePulseClear s).diskBusy = s.diskBusy := rfl
@[simp] theorem stagePulseClear_diskDone (s : State) : (stagePulseClear s).diskDone = s.diskDone := rfl
@[simp] theorem stagePulseClear_cycle (s : State) : (stagePulseClear s).cycle = s.cycle := rfl
@[simp] theorem stagePulseClear_pcSet (s : State) : (stagePulseClear s).pcSet = s.pcSet := rfl
@[simp] theorem stagePulseClear_halted (s : State) : (stagePulseClear s).halted = s.halted := rfl
@[simp] theorem stagePulseClear_schedIdx (s : State) : (stagePulseClear s).schedIdx = s.schedIdx := rfl
@[simp] theorem stagePulseClear_imem (s : State) : (stagePulseClear s).imem = s.imem := rfl
@[simp] theorem stagePulseClear_dmem (s : State) : (stagePulseClear s).dmem = s.dmem := rfl
@[simp] theorem stagePulseClear_disk (s : State) : (stagePulseClear s).disk = s.disk := rfl
@[simp] theorem stagePulseClear_fb (s : State) : (stagePulseClear s).fb = s.fb := rfl
@[simp] theorem stagePulseClear_cfg (s : State) : (stagePulseClear s).cfg = s.cfg := rfl
@[simp] theorem stagePulseClear_events (s : State) : (stagePulseClear s).events = s.events := rfl

/-! ### diskAccept -/

@[simp] theorem diskAccept_regs (s : State) : (diskAccept s).regs = s.regs := diskTransfer_regs s
@[simp] theorem diskAccept_pc (s : State) : (diskAccept s).pc = s.pc := diskTransfer_pc s
@[simp] theorem diskAccept_inService (s : State) : (diskAccept s).inService = s.inService := diskTransfer_inService s
@[simp] theorem diskAccept_diskBusy (s : State) : (diskAccept s).diskBusy = true := rfl
@[simp] theorem diskAccept_diskDone (s : State) : (diskAccept s).diskDone = s.cycle + diskLatency := rfl
@[simp] theorem diskAccept_cycle (s : State) : (diskAccept s).cycle = s.cycle := diskTransfer_cycle s
@[simp] theorem diskAccept_pcSet (s : State) : (diskAccept s).pcSet = s.pcSet := diskTransfer_pcSet s
@[simp] theorem diskAccept_halted (s : State) : (diskAccept s).halted = s.halted := diskTransfer_halted s
@[simp] theorem diskAccept_schedIdx (s : State) : (diskAccept s).schedIdx = s.schedIdx := diskTransfer_schedIdx s
@[simp] theorem diskAccept_imem (s : State) : (diskAccept s).imem = s.imem := diskTransfer_imem s
@[simp] theorem diskAccept_fb (s : State) : (diskAccept s).fb = s.fb := diskTransfer_fb s
@[simp] theorem diskAccept_cfg (s : State) : (diskAccept s).cfg = s.cfg := diskTransfer_cfg s
@[simp] theorem diskAccept_events (s : State) : (diskAccept s).events = s.events := diskTransfer_events s
@[simp] theorem diskAccept_dmem (s : State) : (diskAccept s).dmem = (diskTransfer s).dmem := rfl
@[simp] theorem diskAccept_disk (s : State) : (diskAccept s).disk = (diskTransfer s).disk := rfl

/-! ### S0 to S2, and S0 to S4 -/

@[simp] theorem beforeFetch_regs (s : State) : (beforeFetch s).regs = s.regs := by simp [beforeFetch, stagePend]
@[simp] theorem beforeFetch_diskBusy (s : State) : (beforeFetch s).diskBusy = s.diskBusy := by simp [beforeFetch, stagePend]
@[simp] theorem beforeFetch_diskDone (s : State) : (beforeFetch s).diskDone = s.diskDone := by simp [beforeFetch, stagePend]
@[simp] theorem beforeFetch_cycle (s : State) : (beforeFetch s).cycle = s.cycle := by simp [beforeFetch, stagePend]
@[simp] theorem beforeFetch_pcSet (s : State) : (beforeFetch s).pcSet = false := by simp [beforeFetch, stagePend]
@[simp] theorem beforeFetch_halted (s : State) : (beforeFetch s).halted = s.halted := by simp [beforeFetch, stagePend]
@[simp] theorem beforeFetch_imem (s : State) : (beforeFetch s).imem = s.imem := by simp [beforeFetch, stagePend]
@[simp] theorem beforeFetch_dmem (s : State) : (beforeFetch s).dmem = s.dmem := by simp [beforeFetch, stagePend]
@[simp] theorem beforeFetch_disk (s : State) : (beforeFetch s).disk = s.disk := by simp [beforeFetch, stagePend]
@[simp] theorem beforeFetch_fb (s : State) : (beforeFetch s).fb = s.fb := by simp [beforeFetch, stagePend]
@[simp] theorem beforeFetch_cfg (s : State) : (beforeFetch s).cfg = s.cfg := by simp [beforeFetch, stagePend]
@[simp] theorem beforeFetch_events (s : State) : (beforeFetch s).events = [] := by simp [beforeFetch, stagePend]
@[simp] theorem beforeExecute_pc (s : State) : (beforeExecute s).pc = (beforeFetch s).pc := by simp [beforeExecute]
@[simp] theorem beforeExecute_io (s : State) : (beforeExecute s).io = (beforeFetch s).io := by simp [beforeExecute]
@[simp] theorem beforeExecute_inService (s : State) : (beforeExecute s).inService = (beforeFetch s).inService := by simp [beforeExecute]
@[simp] theorem beforeExecute_diskBusy (s : State) : (beforeExecute s).diskBusy = s.diskBusy := by simp [beforeExecute]
@[simp] theorem beforeExecute_diskDone (s : State) : (beforeExecute s).diskDone = s.diskDone := by simp [beforeExecute]
@[simp] theorem beforeExecute_cycle (s : State) : (beforeExecute s).cycle = s.cycle := by simp [beforeExecute]
@[simp] theorem beforeExecute_pcSet (s : State) : (beforeExecute s).pcSet = false := by simp [beforeExecute]
@[simp] theorem beforeExecute_halted (s : State) : (beforeExecute s).halted = s.halted := by simp [beforeExecute]
@[simp] theorem beforeExecute_schedIdx (s : State) : (beforeExecute s).schedIdx = (beforeFetch s).schedIdx := by simp [beforeExecute]
@[simp] theorem beforeExecute_imem (s : State) : (beforeExecute s).imem = s.imem := by simp [beforeExecute]
@[simp] theorem beforeExecute_dmem (s : State) : (beforeExecute s).dmem = s.dmem := by simp [beforeExecute]
@[simp] theorem beforeExecute_disk (s : State) : (beforeExecute s).disk = s.disk := by simp [beforeExecute]
@[simp] theorem beforeExecute_fb (s : State) : (beforeExecute s).fb = s.fb := by simp [beforeExecute]
@[simp] theorem beforeExecute_cfg (s : State) : (beforeExecute s).cfg = s.cfg := by simp [beforeExecute]

@[simp] theorem beforeExecute_events (s : State) : (beforeExecute s).events =
    [.trace (beforeFetch s).pc (fetchWord (beforeFetch s)) (traceRegs (beforeFetch s))] := by
  simp [beforeExecute, stageTrace]

/-- R126: what every register reads when the instruction executes. -/
theorem readReg_beforeExecute (s : State) (r : RegIdx) : readReg (beforeExecute s) r =
    if r = 2#4 then sext12 (imm2Of (fetchWord (beforeFetch s)))
    else if r = 1#4 then sext12 (imm1Of (fetchWord (beforeFetch s))) else readReg s r := by
  have h : readReg (stageTrace (fetchWord (beforeFetch s)) (beforeFetch s)) r = readReg s r :=
    readReg_congr (beforeFetch_regs s) r
  simp [beforeExecute, stageReload, readReg_writeReg, h]

/-! ### S8 to S11 -/

@[simp] theorem stagesAfterDisk_regs (s : State) : (stagesAfterDisk s).regs = s.regs := by simp [stagesAfterDisk]
@[simp] theorem stagesAfterDisk_inService (s : State) : (stagesAfterDisk s).inService = s.inService := by simp [stagesAfterDisk]
@[simp] theorem stagesAfterDisk_diskBusy (s : State) : (stagesAfterDisk s).diskBusy = s.diskBusy := by simp [stagesAfterDisk]
@[simp] theorem stagesAfterDisk_diskDone (s : State) : (stagesAfterDisk s).diskDone = s.diskDone := by simp [stagesAfterDisk]
@[simp] theorem stagesAfterDisk_pcSet (s : State) : (stagesAfterDisk s).pcSet = s.pcSet := by simp [stagesAfterDisk]
@[simp] theorem stagesAfterDisk_halted (s : State) : (stagesAfterDisk s).halted = s.halted := by simp [stagesAfterDisk]
@[simp] theorem stagesAfterDisk_schedIdx (s : State) : (stagesAfterDisk s).schedIdx = s.schedIdx := by simp [stagesAfterDisk]
@[simp] theorem stagesAfterDisk_imem (s : State) : (stagesAfterDisk s).imem = s.imem := by simp [stagesAfterDisk]
@[simp] theorem stagesAfterDisk_dmem (s : State) : (stagesAfterDisk s).dmem = s.dmem := by simp [stagesAfterDisk]
@[simp] theorem stagesAfterDisk_disk (s : State) : (stagesAfterDisk s).disk = s.disk := by simp [stagesAfterDisk]
@[simp] theorem stagesAfterDisk_fb (s : State) : (stagesAfterDisk s).fb = s.fb := by simp [stagesAfterDisk]
@[simp] theorem stagesAfterDisk_cfg (s : State) : (stagesAfterDisk s).cfg = s.cfg := by simp [stagesAfterDisk]
@[simp] theorem stagesAfterDisk_events (s : State) : (stagesAfterDisk s).events = s.events := by simp [stagesAfterDisk]
@[simp] theorem stagesAfterDisk_cycle (s : State) : (stagesAfterDisk s).cycle = s.cycle + 1 := by
  simp [stagesAfterDisk]
@[simp] theorem stagesAfterDisk_pc (s : State) :
    (stagesAfterDisk s).pc = if s.pcSet || s.halted then s.pc else s.pc + 1#12 := by
  simp only [stagesAfterDisk, stagePulseClear_pc, stageClock_pc, stageAdvance, stageTimer_pcSet, stageTimer_halted]
  split <;> simp

/-- What every I/O register reads after stages S8 to S11 (R131, R132, R231). -/
theorem readIo_stagesAfterDisk (s : State) (n : IoIdx) : readIo (stagesAfterDisk s) n =
    if n = irq2status then 0#32
    else if n = clks then countUp (readIo s clks)
    else if n = timercurrent ∧ readIo s timerenable ≠ 0#32 then countUp (readIo s timercurrent)
    else readIo s n := by
  have hadv : ∀ u m, readIo (stageAdvance u) m = readIo u m := fun u m => readIo_congr (by simp) m
  have hclk : ∀ u m, readIo (stageClock u) m = if m = clks then countUp (readIo u clks) else readIo u m :=
    fun u m => (readIo_congr rfl m).trans (readIo_writeIo u clks m _)
  have htim : ∀ m, readIo (stageTimer s) m =
      if m = timercurrent ∧ readIo s timerenable ≠ 0#32 then countUp (readIo s timercurrent) else readIo s m := by
    intro m
    unfold stageTimer
    split
    · next h => simp [h]
    · next h => rw [readIo_writeIo]; simp [h]
  rw [stagesAfterDisk, stagePulseClear, readIo_writeIo, hclk]
  simp only [hadv, htim]
  have : clks ≠ timercurrent := by decide
  simp [this]

/-! ### S6 -/

/-- Everything stage S6 can do when it goes on: the logs add events, and the monitor writes at most one cell. -/
theorem monitorService_eq_next {s t : State} : monitorService s = .next t ↔
    (readIo s monitorcmd = 1#32 ∧ (readIo s monitoraddr).toNat < fbCells ∧
      t = emit
        { s with fb := Memory.write s.fb (readIo s monitoraddr).toNat ((readIo s monitordata).extractLsb' 0 8) }
        (.monitorWrite (readIo s monitoraddr).toNat ((readIo s monitordata).extractLsb' 0 8))) ∨
    (readIo s monitorcmd ≠ 1#32 ∧ t = s) := by
  unfold monitorService
  split
  · next h =>
    split
    · next hr => simp [h, hr, eq_comm (a := t)]
    · next hr => simp [h, hr]
  · next h => simp [h, eq_comm (a := t)]

/-- The logs of S6 leave every I/O register. -/
@[simp] theorem readIo_logChange (before s : State) (n m : IoIdx) (entry : Nat → Word → Event) :
    readIo (logChange before s n entry) m = readIo s m := readIo_congr (by simp) m

/-- What stage S6 leaves (R255, R258): everything but the framebuffer and the events. -/
theorem stageDevices_keeps {before s t : State} (h : stageDevices before s = .next t) :
    { t with fb := s.fb, events := s.events } = s := by
  have hl : ∀ u n e, { logChange before u n e with fb := s.fb, events := s.events } =
      { u with fb := s.fb, events := s.events } := by
    intro u n e; unfold logChange; split <;> rfl
  rcases monitorService_eq_next.mp h with ⟨_, _, rfl⟩ | ⟨_, rfl⟩
  · exact (hl _ _ _).trans (hl _ _ _)
  · exact (hl _ _ _).trans (hl _ _ _)

theorem stageDevices_regs {before s t : State} (h : stageDevices before s = .next t) : t.regs = s.regs :=
  have e := congrArg State.regs (stageDevices_keeps h)
  e
theorem stageDevices_pc {before s t : State} (h : stageDevices before s = .next t) : t.pc = s.pc :=
  have e := congrArg State.pc (stageDevices_keeps h)
  e
theorem stageDevices_io {before s t : State} (h : stageDevices before s = .next t) : t.io = s.io :=
  have e := congrArg State.io (stageDevices_keeps h)
  e
theorem stageDevices_inService {before s t : State} (h : stageDevices before s = .next t) : t.inService = s.inService :=
  have e := congrArg State.inService (stageDevices_keeps h)
  e
theorem stageDevices_diskBusy {before s t : State} (h : stageDevices before s = .next t) : t.diskBusy = s.diskBusy :=
  have e := congrArg State.diskBusy (stageDevices_keeps h)
  e
theorem stageDevices_diskDone {before s t : State} (h : stageDevices before s = .next t) : t.diskDone = s.diskDone :=
  have e := congrArg State.diskDone (stageDevices_keeps h)
  e
theorem stageDevices_cycle {before s t : State} (h : stageDevices before s = .next t) : t.cycle = s.cycle :=
  have e := congrArg State.cycle (stageDevices_keeps h)
  e
theorem stageDevices_pcSet {before s t : State} (h : stageDevices before s = .next t) : t.pcSet = s.pcSet :=
  have e := congrArg State.pcSet (stageDevices_keeps h)
  e
theorem stageDevices_halted {before s t : State} (h : stageDevices before s = .next t) : t.halted = s.halted :=
  have e := congrArg State.halted (stageDevices_keeps h)
  e
theorem stageDevices_schedIdx {before s t : State} (h : stageDevices before s = .next t) : t.schedIdx = s.schedIdx :=
  have e := congrArg State.schedIdx (stageDevices_keeps h)
  e
theorem stageDevices_imem {before s t : State} (h : stageDevices before s = .next t) : t.imem = s.imem :=
  have e := congrArg State.imem (stageDevices_keeps h)
  e
theorem stageDevices_dmem {before s t : State} (h : stageDevices before s = .next t) : t.dmem = s.dmem :=
  have e := congrArg State.dmem (stageDevices_keeps h)
  e
theorem stageDevices_disk {before s t : State} (h : stageDevices before s = .next t) : t.disk = s.disk :=
  have e := congrArg State.disk (stageDevices_keeps h)
  e
theorem stageDevices_cfg {before s t : State} (h : stageDevices before s = .next t) : t.cfg = s.cfg :=
  have e := congrArg State.cfg (stageDevices_keeps h)
  e

/-! ### S7 -/

/-- Everything stage S7 can do when it goes on (R242): completion, waiting, idling, acceptance. -/
theorem stageDisk_eq_next {s t : State} : stageDisk s = .next t ↔
    (s.diskBusy = true ∧ s.cycle = s.diskDone ∧ t = diskComplete s) ∨
    (s.diskBusy = true ∧ s.cycle ≠ s.diskDone ∧ t = s) ∨
    (s.diskBusy = false ∧ readIo s diskcmd = 0#32 ∧ t = s) ∨
    (s.diskBusy = false ∧ readIo s diskcmd ≠ 0#32 ∧ diskCommandInRange s = true ∧ t = diskAccept s) := by
  unfold stageDisk
  by_cases hb : s.diskBusy = true
  · by_cases hc : s.cycle = s.diskDone <;> simp [hb, hc, eq_comm (a := t)]
  · by_cases h0 : readIo s diskcmd = 0#32
    · simp [hb, h0, eq_comm (a := t)]
    · by_cases hr : diskCommandInRange s = true <;> simp [hb, h0, hr, eq_comm (a := t)]

/-- What stage S7 leaves besides the disk registers, data memory and the disk. -/
theorem stageDisk_keeps {s t : State} (h : stageDisk s = .next t) :
    t.regs = s.regs ∧ t.pc = s.pc ∧ t.inService = s.inService ∧ t.cycle = s.cycle ∧ t.pcSet = s.pcSet ∧
      t.halted = s.halted ∧ t.schedIdx = s.schedIdx ∧ t.imem = s.imem ∧ t.fb = s.fb ∧ t.cfg = s.cfg ∧
      t.events = s.events := by
  rcases stageDisk_eq_next.mp h with ⟨_, _, rfl⟩ | ⟨_, _, rfl⟩ | ⟨_, _, rfl⟩ | ⟨_, _, _, rfl⟩ <;> simp

/-- What every I/O register reads after a completion (R246). -/
theorem readIo_diskComplete (s : State) (n : IoIdx) : readIo (diskComplete s) n =
    if n = irq1status then 1#32 else if n = diskstatus ∨ n = diskcmd then 0#32 else readIo s n := by
  have : readIo (diskComplete s) n =
      readIo (writeIo (writeIo (writeIo s diskcmd 0#32) diskstatus 0#32) irq1status 1#32) n := readIo_congr rfl n
  rw [this, readIo_writeIo, readIo_writeIo, readIo_writeIo]
  by_cases h1 : n = irq1status <;> by_cases h2 : n = diskstatus <;> by_cases h3 : n = diskcmd <;> simp [h1, h2, h3]

/-- What every I/O register reads after an acceptance (R243). -/
theorem readIo_diskAccept (s : State) (n : IoIdx) : readIo (diskAccept s) n =
    if n = diskstatus then 1#32 else readIo s n :=
  (readIo_writeIo _ diskstatus n _).trans (by
    rw [readIo_congr (s := s) (t := { diskTransfer s with diskBusy := true, diskDone := s.cycle + diskLatency })
      (diskTransfer_io s) n])

/-! ### S5 and the step -/

/-- Stage S5 goes on with a known instruction's effect or with the diagnostic of an unknown opcode (R127, R128). -/
theorem stageExecute_eq_next {w : InstrWord} {s t : State} : stageExecute w s = .next t ↔
    (∃ i, decode w = .ok i ∧ exec i s = .next t) ∨
      (decode w = .error (.unknownOpcode (opcodeOf w)) ∧ t = emit s (.diagUnknownOpcode (opcodeOf w))) := by
  unfold stageExecute
  cases hd : decode w with
  | ok i => simp
  | error e =>
    obtain ⟨op⟩ := e
    have hop : op = opcodeOf w := by
      unfold decode at hd
      split at hd
      · cases hd
      · injection hd with hd; injection hd with hd; exact hd.symm
    subst hop
    simp [execUnknown, eq_comm (a := t)]

/-- The inversion lemma of the step: the machine was not halted, and the cycle is stage S5, S6, S7 and the rest. -/
theorem step_eq_next {s t : State} : step s = .next t ↔ s.halted = false ∧ ∃ s5 s6 s7,
    stageExecute (fetchWord (beforeFetch s)) (beforeExecute s) = .next s5 ∧
      stageDevices (beforeExecute s) s5 = .next s6 ∧ stageDisk s6 = .next s7 ∧ t = stagesAfterDisk s7 := by
  unfold step
  by_cases h : s.halted = true
  · simp [h]
  · rw [if_neg h, andThen_eq_next]
    simp only [housekeeping, andThen_eq_next, next_inj]
    constructor
    · rintro ⟨s5, h5, s6, h6, s7, h7, h8⟩
      exact ⟨by simpa using h, s5, s6, s7, h5, h6, h7, h8.symm⟩
    · rintro ⟨_, s5, s6, s7, h5, h6, h7, h8⟩
      exact ⟨s5, h5, s6, h6, s7, h7, h8.symm⟩

end Sys2Proof.Machine
end

