-- ==== Sys2Proof/Laws/PerInstr.lean ====
section
/-! SUPPORT. The family of per-instruction lemmas: the encoded word holds the instruction's own opcode in bits 47:40,
and that opcode is one of the 22 of the opcode map (spec/30_encoding.md R91, R96). -/

namespace Sys2Proof.Laws.OpcodeField

/-- The opcode field of the encoding is the instruction's opcode, and it selects this instruction. -/
def Statement (i : Instr) : Prop :=
  opcodeOf (encode i) = i.opcode ∧ instrOfOpcode i.opcode.toNat i.fields = some i

/-- Concatenation as arithmetic: the left part in the more significant bits (R10). -/
theorem toNat_append_eq_add {n m : Nat} (x : BitVec n) (y : BitVec m) :
    (x ++ y).toNat = x.toNat * 2 ^ m + y.toNat := by
  rw [BitVec.toNat_append, ← Nat.shiftLeft_add_eq_or_of_lt y.isLt, Nat.shiftLeft_eq]

/-- The opcode is the leftmost field, whatever the fields hold. -/
theorem opcodeOf_encodeFields (op : BitVec 8) (f : Fields) : opcodeOf (encodeFields op f) = op := by
  have h : (encodeFields op f).toNat / 2 ^ 40 = op.toNat := by
    simp only [encodeFields, toNat_append_eq_add]
    have h1 := f.rd.isLt
    have h2 := f.rs.isLt
    have h3 := f.rt.isLt
    have h4 := f.rm.isLt
    have h5 := (BitVec.ofInt 12 f.imm1).isLt
    have h6 := (BitVec.ofInt 12 f.imm2).isLt
    omega
  apply BitVec.eq_of_toNat_eq
  rw [opcodeOf, BitVec.extractLsb'_toNat, Nat.shiftRight_eq_div_pow, h]
  exact Nat.mod_eq_of_lt op.isLt

theorem add (f : Fields) : Statement (.add f) := ⟨opcodeOf_encodeFields _ f, rfl⟩
theorem sub (f : Fields) : Statement (.sub f) := ⟨opcodeOf_encodeFields _ f, rfl⟩
theorem mac (f : Fields) : Statement (.mac f) := ⟨opcodeOf_encodeFields _ f, rfl⟩
theorem and (f : Fields) : Statement (.and f) := ⟨opcodeOf_encodeFields _ f, rfl⟩
theorem or (f : Fields) : Statement (.or f) := ⟨opcodeOf_encodeFields _ f, rfl⟩
theorem xor (f : Fields) : Statement (.xor f) := ⟨opcodeOf_encodeFields _ f, rfl⟩
theorem sll (f : Fields) : Statement (.sll f) := ⟨opcodeOf_encodeFields _ f, rfl⟩
theorem sra (f : Fields) : Statement (.sra f) := ⟨opcodeOf_encodeFields _ f, rfl⟩
theorem srl (f : Fields) : Statement (.srl f) := ⟨opcodeOf_encodeFields _ f, rfl⟩
theorem beq (f : Fields) : Statement (.beq f) := ⟨opcodeOf_encodeFields _ f, rfl⟩
theorem bne (f : Fields) : Statement (.bne f) := ⟨opcodeOf_encodeFields _ f, rfl⟩
theorem blt (f : Fields) : Statement (.blt f) := ⟨opcodeOf_encodeFields _ f, rfl⟩
theorem bgt (f : Fields) : Statement (.bgt f) := ⟨opcodeOf_encodeFields _ f, rfl⟩
theorem ble (f : Fields) : Statement (.ble f) := ⟨opcodeOf_encodeFields _ f, rfl⟩
theorem bge (f : Fields) : Statement (.bge f) := ⟨opcodeOf_encodeFields _ f, rfl⟩
theorem jal (f : Fields) : Statement (.jal f) := ⟨opcodeOf_encodeFields _ f, rfl⟩
theorem lw (f : Fields) : Statement (.lw f) := ⟨opcodeOf_encodeFields _ f, rfl⟩
theorem sw (f : Fields) : Statement (.sw f) := ⟨opcodeOf_encodeFields _ f, rfl⟩
theorem reti (f : Fields) : Statement (.reti f) := ⟨opcodeOf_encodeFields _ f, rfl⟩
theorem input (f : Fields) : Statement (.input f) := ⟨opcodeOf_encodeFields _ f, rfl⟩
theorem output (f : Fields) : Statement (.output f) := ⟨opcodeOf_encodeFields _ f, rfl⟩
theorem halt (f : Fields) : Statement (.halt f) := ⟨opcodeOf_encodeFields _ f, rfl⟩

end Sys2Proof.Laws.OpcodeField
end

