-- ==== Sys2Proof/Laws/Step.lean ====
section
/-! SUPPORT. What one whole step can do, said once over variables for the intermediate states: `CycleStart` for the
stages before S5, `Effect` (`exec_effect`) for S5, `CycleEnd` for the stages after it, and `step_cases` which gives
the three together. Later proofs take the step apart with it and unfold no stage. -/

namespace Sys2Proof.Machine

/-! ### Stages S1 and S2 -/

/-- The external line is high in this cycle (R235). -/
abbrev lineHigh (s : State) : Prop := s.cfg.irq2Schedule[s.schedIdx]? = some s.cycle

theorem timerMatches_stageStart (s : State) : timerMatches (stageStart s) = timerMatches s := rfl

/-- What every I/O register reads after stages S0 and S1 (R230, R235). -/
theorem readIo_pended (s : State) (n : IoIdx) : readIo (stagePend (stageStart s)) n =
    if n = irq2status ∧ lineHigh s then 1#32
    else if timerMatches s = true ∧ n = irq0status then 1#32
    else if timerMatches s = true ∧ n = timercurrent then 0#32 else readIo s n := by
  have ht : ∀ m, readIo (pendTimer (stageStart s)) m =
      if timerMatches s = true ∧ m = irq0status then 1#32
      else if timerMatches s = true ∧ m = timercurrent then 0#32 else readIo s m := by
    intro m
    unfold pendTimer
    rw [timerMatches_stageStart]
    by_cases h : timerMatches s = true
    · rw [if_pos h, readIo_writeIo, readIo_writeIo]
      have hne : irq0status ≠ timercurrent := by decide
      by_cases h0 : m = irq0status
      · subst h0; simp [h, hne]
      · by_cases h1 : m = timercurrent
        · subst h1; simp [h, hne.symm]
        · simp only [h0, h1, and_false, if_false]; rfl
    · rw [if_neg h, if_neg (fun e => h e.1), if_neg (fun e => h e.1)]; rfl
  have he : lineHigh (pendTimer (stageStart s)) ↔ lineHigh s := by simp [lineHigh]
  unfold stagePend pendExternal
  by_cases hl : lineHigh s
  · rw [if_pos (he.mpr hl)]
    refine (readIo_congr rfl n).trans ((readIo_writeIo (pendTimer (stageStart s)) irq2status n 1#32).trans ?_)
    rw [ht]
    by_cases hn : n = irq2status
    · rw [if_pos hn, if_pos ⟨hn, hl⟩]
    · rw [if_neg hn, if_neg (c := n = irq2status ∧ _) (fun h => hn h.1)]
  · rw [if_neg (fun h => hl (he.mp h)), ht, if_neg (c := n = irq2status ∧ _) (fun h => hl h.2)]

/-- Where the schedule pointer stands after stage S1 (R235). -/
theorem pended_schedIdx (s : State) : (stagePend (stageStart s)).schedIdx =
    if lineHigh s then s.schedIdx + 1 else s.schedIdx := by
  have he : lineHigh (pendTimer (stageStart s)) ↔ lineHigh s := by simp [lineHigh]
  unfold stagePend pendExternal
  by_cases hl : lineHigh s
  · rw [if_pos (he.mpr hl), if_pos hl]; simp
  · rw [if_neg (fun h => hl (he.mp h)), if_neg hl]; simp

/-- The whole of stages S0 to S4: what the instruction finds, from the state the step starts in. -/
structure CycleStart (s b : State) (w : InstrWord) : Prop where
  regs : ∀ r, readReg b r =
    if r = 2#4 then sext12 (imm2Of w) else if r = 1#4 then sext12 (imm1Of w) else readReg s r
  zeroSlot : b.regs[0] = s.regs[0]
  pc : b.pc = if irqRequest (stagePend (stageStart s)) = true ∧ s.inService = false
    then low12 (readIo s irqhandler) else s.pc
  io : ∀ n, readIo b n = if n = irqreturn ∧ irqRequest (stagePend (stageStart s)) = true ∧ s.inService = false
    then zext12 s.pc else readIo (stagePend (stageStart s)) n
  inService : b.inService = (s.inService || irqRequest (stagePend (stageStart s)))
  schedIdx : b.schedIdx = if lineHigh s then s.schedIdx + 1 else s.schedIdx
  diskBusy : b.diskBusy = s.diskBusy
  diskDone : b.diskDone = s.diskDone
  cycle : b.cycle = s.cycle
  pcSet : b.pcSet = false
  halted : b.halted = s.halted
  imem : b.imem = s.imem
  dmem : b.dmem = s.dmem
  disk : b.disk = s.disk
  fb : b.fb = s.fb
  cfg : b.cfg = s.cfg
  events : b.events = [.trace b.pc w (traceRegs s)]

/-- Stage S2 as one condition (R222). -/
theorem stageVector_cases (s : State) : stageVector s =
    if irqRequest s = true ∧ s.inService = false then enterInterrupt s else s := by
  unfold stageVector
  cases irqRequest s <;> cases s.inService <;> rfl

theorem pended_pc (s : State) : (stagePend (stageStart s)).pc = s.pc := by simp [stagePend]
theorem pended_inService (s : State) : (stagePend (stageStart s)).inService = s.inService := by simp [stagePend]

/-- A register write leaves the slot of R0. -/
theorem writeReg_zeroSlot (t : State) (r : RegIdx) (v : Word) : (writeReg t r v).regs[0] = t.regs[0] := by
  by_cases hr : r = 0#4
  · simp only [writeReg, hr, if_true]
  · have : ¬ r.toNat = 0 := fun h => hr (BitVec.eq_of_toNat_eq h)
    simp only [writeReg, hr, if_false]
    exact Vector.getElem_set_ne _ _ this

/-- Stages S0 to S4 leave the slot of R0. -/
theorem beforeExecute_zeroSlot (s : State) : (beforeExecute s).regs[0] = s.regs[0] := by
  unfold beforeExecute stageReload
  rw [writeReg_zeroSlot, writeReg_zeroSlot]
  have e : ∀ w t, (stageTrace w t).regs = t.regs := fun _ _ => rfl
  simp only [e, beforeFetch_regs]

/-- Stages S0 to S4 are as `CycleStart` says. -/
theorem beforeExecute_start (s : State) : CycleStart s (beforeExecute s) (fetchWord (beforeFetch s)) := by
  have hf : beforeFetch s = if irqRequest (stagePend (stageStart s)) = true ∧ s.inService = false
      then enterInterrupt (stagePend (stageStart s)) else stagePend (stageStart s) := by
    rw [beforeFetch, stageVector_cases, pended_inService]
  have hh : readIo (stagePend (stageStart s)) irqhandler = readIo s irqhandler := by
    rw [readIo_pended]
    have h1 : irqhandler ≠ irq2status := by decide
    have h2 : irqhandler ≠ irq0status := by decide
    have h3 : irqhandler ≠ timercurrent := by decide
    simp [h1, h2, h3]
  refine ⟨fun r => readReg_beforeExecute s r, beforeExecute_zeroSlot s, ?_, ?_, ?_, ?_, beforeExecute_diskBusy s,
    beforeExecute_diskDone s, beforeExecute_cycle s, beforeExecute_pcSet s, beforeExecute_halted s,
    beforeExecute_imem s, beforeExecute_dmem s, beforeExecute_disk s, beforeExecute_fb s, beforeExecute_cfg s, ?_⟩
  · rw [beforeExecute_pc, hf]
    split
    · exact congrArg low12 hh
    · exact pended_pc s
  · intro n
    rw [readIo_congr (beforeExecute_io s) n, hf]
    split
    · next h => rw [readIo_enterInterrupt, pended_pc]; simp [h]
    · next h => simp [h]
  · rw [beforeExecute_inService, hf]
    split
    · next h => rw [h.1, Bool.or_true]; rfl
    · next h =>
      rw [pended_inService]
      cases hs : s.inService <;> simp_all
  · rw [beforeExecute_schedIdx, hf, ← pended_schedIdx]
    split <;> rfl
  · rw [beforeExecute_events, beforeExecute_pc]
    simp only [traceRegs, beforeFetch_regs]

/-! ### Stages S6 to S11 -/

/-- What every I/O register reads after stage S7 (R243, R246). -/
def afterDisk (s5 : State) (n : IoIdx) : Word :=
  if s5.diskBusy = true then
    if s5.cycle = s5.diskDone ∧ n = irq1status then 1#32
    else if s5.cycle = s5.diskDone ∧ (n = diskstatus ∨ n = diskcmd) then 0#32
    else readIo s5 n
  else if readIo s5 diskcmd ≠ 0#32 ∧ n = diskstatus then 1#32
  else readIo s5 n

/-- What stage S7 does to the two counters and the two memories of the disk, in its four cases (R242). -/
inductive DiskEffect (s5 t : State) : Prop where
  | completes (busy : s5.diskBusy = true) (now : s5.cycle = s5.diskDone) (idle : t.diskBusy = false)
      (dmem : t.dmem = s5.dmem) (disk : t.disk = s5.disk)
  | waits (busy : s5.diskBusy = true) (later : s5.cycle ≠ s5.diskDone) (still : t.diskBusy = true)
      (done : t.diskDone = s5.diskDone) (dmem : t.dmem = s5.dmem) (disk : t.disk = s5.disk)
  | idles (idle : s5.diskBusy = false) (none : readIo s5 diskcmd = 0#32) (still : t.diskBusy = false)
      (dmem : t.dmem = s5.dmem) (disk : t.disk = s5.disk)
  | accepts (idle : s5.diskBusy = false) (command : readIo s5 diskcmd ≠ 0#32)
      (inRange : diskCommandInRange s5 = true) (busy : t.diskBusy = true)
      (done : t.diskDone = s5.cycle + diskLatency) (dmem : t.dmem = (diskTransfer s5).dmem)
      (disk : t.disk = (diskTransfer s5).disk)

/-- The events of stage S6 after those of the stages before it (R255, R258). -/
structure LogEffect (b s5 t : State) (added : List Event) : Prop where
  events : t.events = s5.events ++ added
  leds : ∀ c v, Event.leds c v ∈ added ↔
    c = s5.cycle ∧ v = readIo s5 leds ∧ readIo b Machine.leds ≠ readIo s5 Machine.leds
  display7seg : ∀ c v, Event.display7seg c v ∈ added ↔
    c = s5.cycle ∧ v = readIo s5 display7seg ∧
      readIo b Machine.display7seg ≠ readIo s5 Machine.display7seg
  others : ∀ e ∈ added, (∃ c v, e = .leds c v) ∨ (∃ c v, e = .display7seg c v) ∨ ∃ c v, e = .monitorWrite c v

/-- The whole of stages S6 to S11, from the state `s5` after stage S5; `b` is the state before S5. -/
structure CycleEnd (b s5 t : State) : Prop where
  regs : t.regs = s5.regs
  pc : t.pc = if s5.pcSet = true ∨ s5.halted = true then s5.pc else s5.pc + 1#12
  io : ∀ n, readIo t n =
    if n = irq2status then 0#32
    else if n = clks then countUp (readIo s5 clks)
    else if n = timercurrent ∧ readIo s5 timerenable ≠ 0#32 then countUp (readIo s5 timercurrent)
    else afterDisk s5 n
  inService : t.inService = s5.inService
  cycle : t.cycle = s5.cycle + 1
  pcSet : t.pcSet = s5.pcSet
  halted : t.halted = s5.halted
  schedIdx : t.schedIdx = s5.schedIdx
  imem : t.imem = s5.imem
  cfg : t.cfg = s5.cfg
  disk : DiskEffect s5 t
  fb : (readIo s5 monitorcmd = 1#32 ∧ (readIo s5 monitoraddr).toNat < fbCells ∧
      t.fb = Memory.write s5.fb (readIo s5 monitoraddr).toNat ((readIo s5 monitordata).extractLsb' 0 8)) ∨
    (readIo s5 monitorcmd ≠ 1#32 ∧ t.fb = s5.fb)
  log : ∃ added, LogEffect b s5 t added

/-- The disk stage sees only the bank, the counters, the two memories and the parameters. -/
theorem diskTransfer_congr {s t : State} (hio : t.io = s.io) (hd : t.dmem = s.dmem) (hk : t.disk = s.disk) :
    (diskTransfer t).dmem = (diskTransfer s).dmem ∧ (diskTransfer t).disk = (diskTransfer s).disk := by
  unfold diskTransfer diskOffset bufferAddress
  simp only [readIo_congr hio]
  split <;> simp [hd, hk]

theorem diskCommandInRange_congr {s t : State} (hio : t.io = s.io) (hc : t.cfg = s.cfg) :
    diskCommandInRange t = diskCommandInRange s := by
  unfold diskCommandInRange
  simp only [readIo_congr hio, hc]

/-- Stage S7 leaves what `afterDisk` says in the bank. -/
theorem readIo_stageDisk {s t : State} (h : stageDisk s = .next t) (n : IoIdx) : readIo t n = afterDisk s n := by
  unfold afterDisk
  rcases stageDisk_eq_next.mp h with ⟨a, b, rfl⟩ | ⟨a, b, rfl⟩ | ⟨a, b, rfl⟩ | ⟨a, b, c, rfl⟩
  · rw [readIo_diskComplete]; simp [a, b]
  · simp [a, b]
  · simp [a, b]
  · rw [readIo_diskAccept]; simp [a, b]

theorem afterDisk_congr {s t : State} (hio : t.io = s.io) (hb : t.diskBusy = s.diskBusy) (hc : t.cycle = s.cycle)
    (hd : t.diskDone = s.diskDone) (n : IoIdx) : afterDisk t n = afterDisk s n := by
  unfold afterDisk
  simp only [readIo_congr hio, hb, hc, hd]

theorem afterDisk_other {s : State} {n : IoIdx} (h : n ∉ [irq1status, diskstatus, diskcmd]) :
    afterDisk s n = readIo s n := by
  have h1 : n ≠ irq1status := fun e => h (by simp [e])
  have h2 : n ≠ diskstatus := fun e => h (by simp [e])
  have h3 : n ≠ diskcmd := fun e => h (by simp [e])
  simp [afterDisk, h1, h2, h3]

/-- The events that the two logs of stage S6 add. -/
def logEvents (b s5 : State) : List Event :=
  (if readIo b leds = readIo s5 leds then [] else [.leds s5.cycle (readIo s5 leds)]) ++
    (if readIo b display7seg = readIo s5 display7seg then [] else [.display7seg s5.cycle (readIo s5 display7seg)])

theorem logChange_both_events (b s5 : State) :
    (logChange b (logChange b s5 leds .leds) display7seg .display7seg).events = s5.events ++ logEvents b s5 := by
  unfold logEvents logChange
  by_cases h1 : readIo b leds = readIo s5 leds
  · by_cases h2 : readIo b display7seg = readIo s5 display7seg <;> simp [h1, h2]
  · by_cases h2 : readIo b display7seg = readIo s5 display7seg <;> simp [h1, h2]

theorem mem_logEvents (b s5 : State) (e : Event) : e ∈ logEvents b s5 ↔
    (e = .leds s5.cycle (readIo s5 leds) ∧ readIo b leds ≠ readIo s5 leds) ∨
      (e = .display7seg s5.cycle (readIo s5 display7seg) ∧ readIo b display7seg ≠ readIo s5 display7seg) := by
  unfold logEvents
  by_cases h1 : readIo b leds = readIo s5 leds <;> by_cases h2 : readIo b display7seg = readIo s5 display7seg <;>
    simp [h1, h2]

/-- The events that the monitor adds. -/
theorem monitorService_events {s t : State} (h : monitorService s = .next t) :
    ∃ l : List Event, (∀ e ∈ l, ∃ c v, e = Event.monitorWrite c v) ∧ t.events = s.events ++ l := by
  rcases monitorService_eq_next.mp h with ⟨_, _, rfl⟩ | ⟨_, rfl⟩
  · exact ⟨[.monitorWrite _ _], by simp, rfl⟩
  · exact ⟨[], by simp, (List.append_nil _).symm⟩

/-- Stage S6's events are as `LogEffect` says. -/
theorem stageDevices_log {b s5 t : State} (h : stageDevices b s5 = .next t) : ∃ added, LogEffect b s5 t added := by
  have key : ∀ l : List Event, (∀ e ∈ l, ∃ c v, e = Event.monitorWrite c v) → t.events = s5.events ++ (logEvents b s5 ++ l) →
      LogEffect b s5 t (logEvents b s5 ++ l) := by
    intro l hl ht
    refine ⟨ht, fun c v => ?_, fun c v => ?_, fun e he => ?_⟩
    · rw [List.mem_append, mem_logEvents]
      constructor
      · rintro ((⟨h1, h2⟩ | ⟨h1, _⟩) | h1)
        · injection h1 with hc hv; exact ⟨hc, hv, h2⟩
        · cases h1
        · obtain ⟨_, _, h1⟩ := hl _ h1; cases h1
      · rintro ⟨rfl, rfl, h2⟩; exact .inl (.inl ⟨rfl, h2⟩)
    · rw [List.mem_append, mem_logEvents]
      constructor
      · rintro ((⟨h1, _⟩ | ⟨h1, h2⟩) | h1)
        · cases h1
        · injection h1 with hc hv; exact ⟨hc, hv, h2⟩
        · obtain ⟨_, _, h1⟩ := hl _ h1; cases h1
      · rintro ⟨rfl, rfl, h2⟩; exact .inl (.inr ⟨rfl, h2⟩)
    · rw [List.mem_append, mem_logEvents] at he
      rcases he with (⟨h1, _⟩ | ⟨h1, _⟩) | h1
      · exact .inl ⟨_, _, h1⟩
      · exact .inr (.inl ⟨_, _, h1⟩)
      · exact .inr (.inr (hl _ h1))
  obtain ⟨l, hl, ht⟩ := monitorService_events h
  refine ⟨_, key l hl ?_⟩
  rw [← List.append_assoc, ← logChange_both_events]
  exact ht

/-- Stages S6 to S11 are as `CycleEnd` says. -/
theorem cycleEnd_of {b s5 s6 s7 : State} (h6 : stageDevices b s5 = .next s6) (h7 : stageDisk s6 = .next s7) :
    CycleEnd b s5 (stagesAfterDisk s7) := by
  obtain ⟨kregs, kpc, kserv, kcycle, kset, khalt, ksched, kimem, kfb, kcfg, kev⟩ := stageDisk_keeps h7
  have i7 : ∀ n, readIo s7 n = afterDisk s5 n := fun n =>
    (readIo_stageDisk h7 n).trans (afterDisk_congr (stageDevices_io h6) (stageDevices_diskBusy h6)
      (stageDevices_cycle h6) (stageDevices_diskDone h6) n)
  refine ⟨?_, ?_, ?_, ?_, ?_, ?_, ?_, ?_, ?_, ?_, ?_, ?_, ?_⟩
  · rw [stagesAfterDisk_regs, kregs, stageDevices_regs h6]
  · rw [stagesAfterDisk_pc, kpc, kset, khalt, stageDevices_pc h6, stageDevices_pcSet h6, stageDevices_halted h6]
    simp only [Bool.or_eq_true]
  · intro n
    rw [readIo_stagesAfterDisk]
    simp only [i7, afterDisk_other (n := clks) (by decide), afterDisk_other (n := timerenable) (by decide),
      afterDisk_other (n := timercurrent) (by decide)]
  · rw [stagesAfterDisk_inService, kserv, stageDevices_inService h6]
  · rw [stagesAfterDisk_cycle, kcycle, stageDevices_cycle h6]
  · rw [stagesAfterDisk_pcSet, kset, stageDevices_pcSet h6]
  · rw [stagesAfterDisk_halted, khalt, stageDevices_halted h6]
  · rw [stagesAfterDisk_schedIdx, ksched, stageDevices_schedIdx h6]
  · rw [stagesAfterDisk_imem, kimem, stageDevices_imem h6]
  · rw [stagesAfterDisk_cfg, kcfg, stageDevices_cfg h6]
  · have hio := stageDevices_io h6
    have hb := stageDevices_diskBusy h6
    have hc := stageDevices_cycle h6
    have hd := stageDevices_diskDone h6
    have hm := stageDevices_dmem h6
    have hk := stageDevices_disk h6
    have ht := diskTransfer_congr hio hm hk
    rcases stageDisk_eq_next.mp h7 with ⟨x, y, rfl⟩ | ⟨x, y, rfl⟩ | ⟨x, y, rfl⟩ | ⟨x, y, z, rfl⟩
    · exact .completes (hb ▸ x) (hc ▸ hd ▸ y) (stagesAfterDisk_diskBusy _)
        ((stagesAfterDisk_dmem _).trans hm) ((stagesAfterDisk_disk _).trans hk)
    · exact .waits (hb ▸ x) (hc ▸ hd ▸ y) ((stagesAfterDisk_diskBusy _).trans x)
        ((stagesAfterDisk_diskDone _).trans hd) ((stagesAfterDisk_dmem _).trans hm) ((stagesAfterDisk_disk _).trans hk)
    · exact .idles (hb ▸ x) (readIo_congr hio diskcmd ▸ y) ((stagesAfterDisk_diskBusy _).trans x)
        ((stagesAfterDisk_dmem _).trans hm) ((stagesAfterDisk_disk _).trans hk)
    · exact .accepts (hb ▸ x) (readIo_congr hio diskcmd ▸ y)
        (diskCommandInRange_congr hio (stageDevices_cfg h6) ▸ z) (stagesAfterDisk_diskBusy _)
        ((stagesAfterDisk_diskDone _).trans (congrArg (· + diskLatency) hc))
        ((stagesAfterDisk_dmem _).trans ht.1) ((stagesAfterDisk_disk _).trans ht.2)
  · rw [stagesAfterDisk_fb, kfb]
    have hfb : (logChange b (logChange b s5 leds .leds) display7seg .display7seg).fb = s5.fb := by simp
    rcases monitorService_eq_next.mp h6 with ⟨x, y, rfl⟩ | ⟨x, rfl⟩
    · rw [readIo_logChange, readIo_logChange] at x y
      refine .inl ⟨x, y, ?_⟩
      simp only [emit_fb, readIo_logChange, hfb]
    · rw [readIo_logChange, readIo_logChange] at x
      exact .inr ⟨x, hfb⟩
  · obtain ⟨added, hl⟩ := stageDevices_log h6
    refine ⟨added, ⟨?_, hl.leds, hl.display7seg, hl.others⟩⟩
    rw [stagesAfterDisk_events, kev]
    exact hl.events

/-! ### The whole step -/

/-- What stage S5 does: an instruction's effect, or the diagnostic of an unknown opcode. -/
inductive ExecuteEffect (w : InstrWord) (b s5 : State) : Prop where
  | known (i : Instr) (decoded : decode w = .ok i) (runs : exec i b = .next s5) (effect : Effect i b s5)
  | unknown (decoded : decode w = .error (.unknownOpcode (opcodeOf w)))
      (effect : s5 = emit b (.diagUnknownOpcode (opcodeOf w)))

/-- What no instruction changes. -/
structure ExecuteKeeps (b s5 : State) : Prop where
  cycle : s5.cycle = b.cycle
  diskBusy : s5.diskBusy = b.diskBusy
  diskDone : s5.diskDone = b.diskDone
  schedIdx : s5.schedIdx = b.schedIdx
  imem : s5.imem = b.imem
  disk : s5.disk = b.disk
  fb : s5.fb = b.fb
  cfg : s5.cfg = b.cfg
  zeroSlot : s5.regs[0] = b.regs[0]

theorem Effect.keeps {i : Instr} {b s5 : State} (e : Effect i b s5) : ExecuteKeeps b s5 := by
  cases e with
  | register v h | link f h | readIo f n h hn =>
    exact ⟨rfl, rfl, rfl, rfl, rfl, rfl, rfl, rfl, writeReg_zeroSlot _ _ _⟩
  | nothing | jump | store | skip | writeIo | giveBack | halt =>
    exact ⟨rfl, rfl, rfl, rfl, rfl, rfl, rfl, rfl, rfl⟩

theorem ExecuteEffect.keeps {w : InstrWord} {b s5 : State} (e : ExecuteEffect w b s5) : ExecuteKeeps b s5 := by
  cases e with
  | known i _ _ effect => exact effect.keeps
  | unknown _ effect => subst effect; exact ⟨rfl, rfl, rfl, rfl, rfl, rfl, rfl, rfl, rfl⟩

/-- A general register changes in stage S5 only as the `rd` of an instruction that writes one. -/
theorem ExecuteEffect.reg_changed {w : InstrWord} {b s5 : State} (e : ExecuteEffect w b s5) {r : RegIdx}
    (h : readReg s5 r ≠ readReg b r) : ∃ i, decode w = .ok i ∧ i.fields.rd = r ∧ ∃ f, i = .add f ∨ i = .sub f ∨
      i = .mac f ∨ i = .and f ∨ i = .or f ∨ i = .xor f ∨ i = .sll f ∨ i = .sra f ∨ i = .srl f ∨ i = .lw f ∨
      i = .jal f ∨ i = .input f := by
  have key : ∀ rd v, readReg (writeReg b rd v) r ≠ readReg b r → rd = r := by
    intro rd v hh
    by_contra hc
    exact hh (readReg_writeReg_other b rd r v (Ne.symm hc))
  cases e with
  | unknown _ effect => subst effect; exact absurd (readReg_emit _ _ _) h
  | known i decoded _ effect =>
    refine ⟨i, decoded, ?_⟩
    cases effect with
    | register v hi => obtain ⟨f, hi⟩ := hi; exact ⟨key _ _ h, f, by tauto⟩
    | link f hi => subst hi; exact ⟨key _ _ h, f, by simp⟩
    | readIo f n hi hn => subst hi; exact ⟨key _ _ h, f, by simp⟩
    | nothing => exact absurd rfl h
    | jump => exact absurd (readReg_jumpTo _ _ _) h
    | store => exact absurd (readReg_writeData _ _ _ _) h
    | skip => exact absurd (readReg_emit _ _ _) h
    | writeIo => exact absurd rfl h
    | giveBack => exact absurd (readReg_returnFromInterrupt _ _) h
    | halt => exact absurd rfl h

/-- An I/O register changes in stage S5 only as the target of an `out`. -/
theorem ExecuteEffect.io_changed {w : InstrWord} {b s5 : State} (e : ExecuteEffect w b s5) {n : IoIdx}
    (h : readIo s5 n ≠ readIo b n) : ∃ f, decode w = .ok (.output f) ∧ effectiveAddress f b = (n.val : Int) ∧
      readIo s5 n = readReg b f.rm := by
  cases e with
  | unknown _ effect => subst effect; exact absurd (readIo_emit _ _ _) h
  | known i decoded _ effect =>
    cases effect with
    | writeIo f m hi hn =>
      subst hi
      have e : ∀ k, readIo (emit (writeIo b m (readReg b f.rm)) (.hwAccess b.cycle m .write (readReg b f.rm))) k =
          if k = m then readReg b f.rm else readIo b k := fun k => readIo_writeIo b m k _
      rw [e] at h
      by_cases hm : n = m
      · subst hm; exact ⟨f, decoded, hn, (e n).trans (if_pos rfl)⟩
      · exact absurd (if_neg hm) h
    | nothing => exact absurd rfl h
    | register v hi => exact absurd (readIo_writeReg _ _ _ _) h
    | link f hi => exact absurd rfl h
    | readIo f m hi hn => exact absurd rfl h
    | jump => exact absurd (readIo_jumpTo _ _ _) h
    | store => exact absurd (readIo_writeData _ _ _ _) h
    | skip => exact absurd (readIo_emit _ _ _) h
    | giveBack => exact absurd (readIo_returnFromInterrupt _ _) h
    | halt => exact absurd rfl h

/-- An instruction other than `out` leaves the bank. -/
theorem ExecuteEffect.io_kept {w : InstrWord} {b s5 : State} (e : ExecuteEffect w b s5)
    (h : ∀ f, decode w ≠ .ok (.output f)) (n : IoIdx) : readIo s5 n = readIo b n := by
  by_contra hc
  obtain ⟨f, hf, _⟩ := e.io_changed hc
  exact h f hf

/-- Data memory changes in stage S5 only by a store, at its address. -/
theorem ExecuteEffect.data_changed {w : InstrWord} {b s5 : State} (e : ExecuteEffect w b s5) {a : Nat}
    (h : readData s5 a ≠ readData b a) :
    ∃ f, decode w = .ok (.sw f) ∧ effectiveAddress f b = (a : Int) ∧ a < b.cfg.dmemWords := by
  cases e with
  | unknown _ effect => subst effect; exact absurd (readData_emit _ _ _) h
  | known i decoded _ effect =>
    cases effect with
    | store f k v hi hk =>
      subst hi
      by_cases hm : a = k.val
      · subst hm; exact ⟨f, decoded, hk, k.isLt⟩
      · exact absurd (Memory.read_write_other _ _ _ _ hm) h
    | nothing => exact absurd rfl h
    | register v hi => exact absurd (readData_writeReg _ _ _ _) h
    | link f hi => exact absurd rfl h
    | readIo f m hi hn => exact absurd rfl h
    | writeIo f m hi hn => exact absurd rfl h
    | jump => exact absurd (readData_jumpTo _ _ _) h
    | skip => exact absurd (readData_emit _ _ _) h
    | giveBack => exact absurd (readData_returnFromInterrupt _ _) h
    | halt => exact absurd rfl h

/-- The latch and the halt flag in stage S5: `reti` clears the one, `halt` sets the other. -/
theorem ExecuteEffect.flags {w : InstrWord} {b s5 : State} (e : ExecuteEffect w b s5) :
    ((∃ f, decode w = .ok (.reti f)) → s5.inService = false) ∧
    ((∀ f, decode w ≠ .ok (.reti f)) → s5.inService = b.inService) ∧
    ((∃ f, decode w = .ok (.halt f)) → s5.halted = true ∧ s5.pc = b.pc) ∧
    ((∀ f, decode w ≠ .ok (.halt f)) → s5.halted = b.halted) := by
  cases e with
  | unknown decoded effect => subst effect; simp [decoded]
  | known i decoded runs effect =>
    refine ⟨?_, ?_, ?_, ?_⟩
    · rintro ⟨f, hf⟩
      rw [decoded] at hf
      injection hf with hf
      subst hf
      exact (next_inj.mp runs) ▸ rfl
    · intro hno
      cases effect with
      | giveBack f hi => exact absurd (hi ▸ decoded) (hno f)
      | _ => rfl
    · rintro ⟨f, hf⟩
      rw [decoded] at hf
      injection hf with hf
      subst hf
      rw [← next_inj.mp runs]
      exact ⟨rfl, rfl⟩
    · intro hno
      cases effect with
      | halt f hi => exact absurd (hi ▸ decoded) (hno f)
      | _ => rfl

/-- The inversion lemma of the step over variables: every claim about a whole step starts from it. -/
theorem step_cases {s t : State} (h : step s = .next t) : s.halted = false ∧ ∃ w b s5,
    w = fetchWord (beforeFetch s) ∧ b = beforeExecute s ∧ CycleStart s b w ∧ stageExecute w b = .next s5 ∧
      ExecuteEffect w b s5 ∧ CycleEnd b s5 t := by
  obtain ⟨h0, s5, s6, s7, h5, h6, h7, rfl⟩ := step_eq_next.mp h
  refine ⟨h0, _, _, s5, rfl, rfl, beforeExecute_start s, h5, ?_, cycleEnd_of h6 h7⟩
  rcases stageExecute_eq_next.mp h5 with ⟨i, hd, he⟩ | ⟨hd, he⟩
  · exact .known i hd he (exec_effect he)
  · exact .unknown hd he

end Sys2Proof.Machine
end

