-- ==== Sys2Proof/Laws/Run.lean ====
section
/-! SUPPORT. Runs of several cycles: the first cycle, the last cycle, the one induction over a run, and what a run
under a bound ends in. -/

namespace Sys2Proof.Machine

@[simp] theorem runCycles_zero (s : State) : runCycles 0 s = .next s := rfl

/-- A run is its first cycle and then the others. -/
theorem runCycles_succ (n : Nat) (s : State) : runCycles (n + 1) s = andThen (step s) (runCycles n) := by
  have key : ∀ o : Result, step s = o → Host.Core.run Sys2Proof.core (n + 1) s = andThen o (runCycles n) := by
    intro o ho
    have ho : Sys2Proof.core.step s = o := ho
    simp only [Host.Core.run, ho]
    cases o <;> rfl
  exact key _ rfl

/-- A run that goes on is a shorter run that goes on and then one more cycle. -/
theorem runCycles_succ_eq_next {n : Nat} {s t : State} :
    runCycles (n + 1) s = .next t ↔ ∃ u, runCycles n s = .next u ∧ step u = .next t := by
  induction n generalizing s with
  | zero => simp [runCycles_succ, andThen_eq_next]
  | succ n ih =>
    rw [runCycles_succ, andThen_eq_next]
    constructor
    · rintro ⟨v, hv, hr⟩
      obtain ⟨u, hu, ht⟩ := ih.mp hr
      exact ⟨u, by rw [runCycles_succ, hv]; exact hu, ht⟩
    · rintro ⟨u, hu, ht⟩
      rw [runCycles_succ, andThen_eq_next] at hu
      obtain ⟨v, hv, hr⟩ := hu
      exact ⟨v, hv, ih.mpr ⟨u, hr, ht⟩⟩

/-- What every step keeps, every run keeps. -/
theorem runCycles_keeps {P : State → Prop} (hP : ∀ s t, P s → step s = .next t → P t) {n : Nat} {s t : State}
    (hs : P s) (h : runCycles n s = .next t) : P t := by
  induction n generalizing t with
  | zero => rw [← next_inj.mp h]; exact hs
  | succ n ih =>
    obtain ⟨u, hu, ht⟩ := runCycles_succ_eq_next.mp h
    exact hP u t (ih hu) ht

/-! ### Runs under a bound (R134) -/

@[simp] theorem RunEnd.after_state (l : List Event) (e : RunEnd) : (e.after l).state = e.state := rfl
@[simp] theorem RunEnd.after_log (l : List Event) (e : RunEnd) : (e.after l).log = l ++ e.log := rfl
@[simp] theorem RunEnd.after_final (l : List Event) (e : RunEnd) : (e.after l).final = e.final := rfl

/-- Everything a run under a bound can do in its first cycle: it is over, or a cycle goes before the rest. -/
theorem runToHalt_succ_eq_next {n : Nat} {s : State} {e : RunEnd} : runToHalt (n + 1) s = .next e ↔
    (s.halted = true ∧ e = { state := s, log := [], final := true }) ∨
      (s.halted = false ∧ ∃ t r, step s = .next t ∧ runToHalt n t = .next r ∧ e = r.after t.events) := by
  cases hh : s.halted with
  | true => simp [runToHalt, hh, eq_comm (a := e)]
  | false => simp [runToHalt, hh, andThen_eq_next, eq_comm (a := e)]

/-- What a run under a bound ends in: the state some number of cycles on, halted when it is final, and after exactly
`n` cycles when it is not. -/
theorem runToHalt_end {n : Nat} {s : State} {e : RunEnd} (h : runToHalt n s = .next e) :
    e.final = e.state.halted ∧ ∃ k, k ≤ n ∧ runCycles k s = .next e.state ∧ (e.final = false → k = n) := by
  induction n generalizing s e with
  | zero =>
    injection h with h
    subst h
    exact ⟨rfl, 0, le_rfl, rfl, fun _ => rfl⟩
  | succ n ih =>
    rcases runToHalt_succ_eq_next.mp h with ⟨hh, rfl⟩ | ⟨_, t, r, ht, hr, rfl⟩
    · exact ⟨hh.symm, 0, Nat.zero_le _, rfl, fun hf => by cases hf⟩
    · obtain ⟨hf, k, hk, hrun, hlast⟩ := ih hr
      refine ⟨hf, k + 1, Nat.succ_le_succ hk, ?_, fun h => congrArg (· + 1) (hlast h)⟩
      rw [runCycles_succ, ht]
      exact hrun

/-- The streams of a run are those of its first cycle followed by those of the rest (R262 to R264). -/
theorem report_after (l : List Event) (e : RunEnd) : report (e.after l) =
    { report e with
      trace := l.filterMap traceRecord ++ (report e).trace
      accesses := l.filterMap accessRecord ++ (report e).accesses
      leds := l.filterMap ledsRecord ++ (report e).leds
      display7seg := l.filterMap display7segRecord ++ (report e).display7seg } := by
  simp only [report, RunEnd.after, List.filterMap_append]

end Sys2Proof.Machine
end

