-- ==== Sys2Proof/Tests/Slice0.lean ====
section
/-! SUPPORT. Tests whose expected results come from the spec: the worked encodings of spec/30_encoding.md R103, the
vectors of spec/95_test_vectors.md, and the examples of the rules named at each test. -/

namespace Sys2Proof.Machine

/-- Reset with the given general registers, I/O registers and pc. -/
def testState (regs : List (RegIdx × Word)) (io : List (IoIdx × Word)) (pc : PcAddr) : State :=
  { io.foldl (fun s p => writeIo s p.1 p.2) (regs.foldl (fun s p => writeReg s p.1 p.2) State.reset) with pc := pc }

/-- The outcome is a next state of which `p` holds. -/
def nextWith (o : Result) (p : State → Bool) : Bool :=
  match o with
  | .next s => p s
  | _ => false

/-- The outcome is this fault. -/
def faultIs (o : Result) (r : Fault) : Bool :=
  match o with
  | .fault q => decide (q = r)
  | _ => false

/-- The decoder reads this instruction. -/
def decodesTo (w : InstrWord) (i : Instr) : Bool :=
  match decode w with
  | .ok j => decide (j = i)
  | .error _ => false

/-- The decoder rejects the word with this opcode. -/
def rejects (w : InstrWord) (opcode : BitVec 8) : Bool :=
  match decode w with
  | .ok _ => false
  | .error (.unknownOpcode o) => decide (o = opcode)

/-- A state with one instruction word where the next step fetches. -/
def withWord (s : State) (w : Nat) : State := s.withFetchWord 48 w

/-- One step from a state with the word of one instruction where it fetches. -/
def stepWord (s : State) (w : Nat) : Result := step (s.withFetchWord 48 w)

/-! ### Well-formedness refuses ill-formed terms -/

theorem test_wf_refuses_imm1_above : (Instr.add ⟨3, 0, 0, 1, 2048, 0⟩).wf = false := by decide
theorem test_wf_refuses_imm2_below : (Instr.lw ⟨3, 0, 0, 1, 0, -2049⟩).wf = false := by decide
theorem test_wf_accepts_ends : (Instr.add ⟨5, 1, 2, 0, 2047, -2048⟩).wf = true := by decide
theorem test_config_wf_refuses_repeat : (Config.wf ⟨4096, false, [4, 4]⟩) = false := by decide
theorem test_config_wf_accepts_p6 : (Config.wf ⟨4096, false, [4, 6, 15]⟩) = true := by decide

/-! ### Decoding: words written out from R91 and R96, and those of R103 and section 2.1 -/

theorem test_decode_add : decodesTo 0x003001005000#48 (.add ⟨3, 0, 0, 1, 5, 0⟩) = true := by decide
theorem test_decode_sub : decodesTo 0x014410001000#48 (.sub ⟨4, 4, 1, 0, 1, 0⟩) = true := by decide
theorem test_decode_mac : decodesTo 0x023441001000#48 (.mac ⟨3, 4, 4, 1, 1, 0⟩) = true := by decide
theorem test_decode_and : decodesTo 0x033456000000#48 (.and ⟨3, 4, 5, 6, 0, 0⟩) = true := by decide
theorem test_decode_or : decodesTo 0x043456000000#48 (.or ⟨3, 4, 5, 6, 0, 0⟩) = true := by decide
theorem test_decode_xor : decodesTo 0x053456000000#48 (.xor ⟨3, 4, 5, 6, 0, 0⟩) = true := by decide
theorem test_decode_sll : decodesTo 0x066310004000#48 (.sll ⟨6, 3, 1, 0, 4, 0⟩) = true := by decide
theorem test_decode_sra : decodesTo 0x077210001FF9#48 (.sra ⟨7, 2, 1, 0, 1, -7⟩) = true := by decide
theorem test_decode_srl : decodesTo 0x083450000000#48 (.srl ⟨3, 4, 5, 0, 0, 0⟩) = true := by decide
theorem test_decode_beq : decodesTo 0x090001FFF000#48 (.beq ⟨0, 0, 0, 1, -1, 0⟩) = true := by decide
theorem test_decode_bne : decodesTo 0x0A0401002000#48 (.bne ⟨0, 4, 0, 1, 2, 0⟩) = true := by decide
theorem test_decode_blt : decodesTo 0x0B0312003005#48 (.blt ⟨0, 3, 1, 2, 3, 5⟩) = true := by decide
theorem test_decode_bgt : decodesTo 0x0C0401002000#48 (.bgt ⟨0, 4, 0, 1, 2, 0⟩) = true := by decide
theorem test_decode_ble : decodesTo 0x0D0451200000#48 (.ble ⟨0, 4, 5, 1, 512, 0⟩) = true := by decide
theorem test_decode_bge : decodesTo 0x0E0451200000#48 (.bge ⟨0, 4, 5, 1, 512, 0⟩) = true := by decide
theorem test_decode_jal : decodesTo 0x0FF001100000#48 (.jal ⟨15, 0, 0, 1, 256, 0⟩) = true := by decide
theorem test_decode_lw : decodesTo 0x106710010000#48 (.lw ⟨6, 7, 1, 0, 16, 0⟩) = true := by decide
theorem test_decode_sw : decodesTo 0x115701002000#48 (.sw ⟨5, 7, 0, 1, 2, 0⟩) = true := by decide
theorem test_decode_reti : decodesTo 0x120000000000#48 (.reti ⟨0, 0, 0, 0, 0, 0⟩) = true := by decide
theorem test_decode_in : decodesTo 0x136100011000#48 (.input ⟨6, 1, 0, 0, 17, 0⟩) = true := by decide
theorem test_decode_out : decodesTo 0x14010200E001#48 (.output ⟨0, 1, 0, 2, 14, 1⟩) = true := by decide
theorem test_decode_halt : decodesTo 0x15FEDCBA9876#48 (.halt ⟨15, 14, 13, 12, -1111, -1930⟩) = true := by decide
theorem test_decode_unknown_ff : rejects 0xFF3000123456#48 255 = true := by decide
theorem test_decode_unknown_16 : rejects 0x1630007FF7FF#48 22 = true := by decide
theorem test_encode_add : encode (.add ⟨5, 1, 2, 0, -1, -2048⟩) = 0x005120FFF800#48 := by decide
theorem test_encode_out : encode (.output ⟨0, 1, 0, 2, 14, 1⟩) = 0x14010200E001#48 := by decide

/-! ### ALU, section 2.2 and 2.3 -/

theorem test_add_wraps : nextWith (stepWord (testState [(4, 0x7FFFFFFF), (5, 1)] [] 0) 0x003456000000)
    (fun t => readReg t 3 == 0x80000000 && t.pc == 1) = true := by decide
theorem test_add_reads_before_write : nextWith (stepWord (testState [(3, 7)] [] 0) 0x003333000000)
    (fun t => readReg t 3 == 0x15) = true := by decide
theorem test_sub : nextWith (stepWord (testState [(4, 5), (5, 0xFFFFFFFF), (6, 0xFFFFFFFF)] [] 0) 0x013456000000)
    (fun t => readReg t 3 == 7) = true := by decide
theorem test_mac_subtracts : nextWith (stepWord (testState [(4, 3), (5, 4), (6, 0xFFFFFFFB)] [] 0) 0x023456000000)
    (fun t => readReg t 3 == 0x11) = true := by decide
theorem test_and : nextWith (stepWord (testState [(4, 0xFF00FF00), (5, 0x0FF00FF0), (6, 0xFFFFFFFF)] [] 0) 0x033456000000)
    (fun t => readReg t 3 == 0x0F000F00) = true := by decide
theorem test_or : nextWith (stepWord (testState [(4, 0xF0000000), (5, 0xF), (6, 0xF00)] [] 0) 0x043456000000)
    (fun t => readReg t 3 == 0xF0000F0F) = true := by decide
theorem test_xor : nextWith (stepWord (testState [(4, 0xAAAAAAAA), (5, 0xAAAAAAAA), (6, 0x12345678)] [] 0) 0x053456000000)
    (fun t => readReg t 3 == 0x12345678) = true := by decide
theorem test_sll : nextWith (stepWord (testState [(4, 0x80000001), (5, 4)] [] 0) 0x063450000000)
    (fun t => readReg t 3 == 0x10) = true := by decide
theorem test_sll_32 : nextWith (stepWord (testState [(4, 1), (5, 32)] [] 0) 0x063450000000)
    (fun t => readReg t 3 == 0) = true := by decide
theorem test_sra_rounds_down : nextWith (stepWord (testState [] [] 0) 0x077210001FF9)
    (fun t => readReg t 7 == 0xFFFFFFFC) = true := by decide
theorem test_sra_33 : nextWith (stepWord (testState [(4, 0x80000001), (5, 33)] [] 0) 0x073450000000)
    (fun t => readReg t 3 == 0xFFFFFFFF) = true := by decide
theorem test_srl : nextWith (stepWord (testState [(4, 0xFFFFFF00), (5, 31)] [] 0) 0x083450000000)
    (fun t => readReg t 3 == 1) = true := by decide
theorem test_srl_large : nextWith (stepWord (testState [(4, 0xFFFFFF00), (5, 0x7FFFFFFF)] [] 0) 0x083450000000)
    (fun t => readReg t 3 == 0) = true := by decide
theorem test_write_to_r0_discarded : nextWith (stepWord (testState [] [] 0) 0x000100005000)
    (fun t => readReg t 0 == 0 && readReg t 1 == 5) = true := by decide
theorem test_write_to_r1_stays_till_reload : nextWith (stepWord (testState [] [] 0) 0x001110004000)
    (fun t => readReg t 1 == 8) = true := by decide

/-! ### Branches and jal, section 2.4 and 2.5 -/

theorem test_beq_taken : nextWith (stepWord (testState [(4, 5), (5, 5)] [] 0x010) 0x090451200000)
    (fun t => t.pc == 0x200) = true := by decide
theorem test_bne_untaken_wraps : nextWith (stepWord (testState [] [] 0xFFF) 0x0A0001005000)
    (fun t => t.pc == 0) = true := by decide
theorem test_blt_signed : nextWith (stepWord (testState [(4, 0xFFFFFFFF)] [] 0x010) 0x0B0451200000)
    (fun t => t.pc == 0x200) = true := by decide
theorem test_bgt_signed : nextWith (stepWord (testState [(4, 0x80000000), (5, 0x7FFFFFFF)] [] 0x010) 0x0C0451200000)
    (fun t => t.pc == 0x011) = true := by decide
theorem test_ble_equal : nextWith (stepWord (testState [(4, 0x80000000), (5, 0x80000000)] [] 0x010) 0x0D0451200000)
    (fun t => t.pc == 0x200) = true := by decide
theorem test_bge_signed : nextWith (stepWord (testState [(4, 0xFFFFFFFF)] [] 0x010) 0x0E0451200000)
    (fun t => t.pc == 0x011) = true := by decide
theorem test_branch_target_low_bits : nextWith (stepWord (testState [(6, 0x12345FFF)] [] 0x010) 0x090006000000)
    (fun t => t.pc == 0xFFF) = true := by decide
theorem test_jal_link_at_top : nextWith (stepWord (testState [] [] 0xFFF) 0x0FF001100000)
    (fun t => readReg t 15 == 0x1000 && t.pc == 0x100) = true := by decide
theorem test_jal_rd_is_rm : nextWith (stepWord (testState [(7, 0x300)] [] 0x020) 0x0F7007000000)
    (fun t => readReg t 7 == 0x21 && t.pc == 0x021) = true := by decide

/-! ### Load and store, section 2.6 -/

theorem test_lw_adds : nextWith (stepWord (writeData (testState [(7, 4)] [] 0) 20 0x64) 0x106712010005)
    (fun t => readReg t 6 == 0x69) = true := by decide
theorem test_lw_negative_skips : nextWith (stepWord (testState [(7, 3), (6, 0x55)] [] 0) 0x106710FFC000)
    (fun t => readReg t 6 == 0x55 && t.pc == 1 && t.events.contains (.diagNegativeAddress (-1))) = true := by decide
theorem test_lw_no_wrap : faultIs (stepWord (testState [(7, 0x80000000), (8, 0x80000000)] [] 0) 0x106780000000)
    .effectiveAddressOverflow = true := by decide
theorem test_sw : nextWith (stepWord (testState [(5, 0x11), (7, 30)] [] 0) 0x115701002000)
    (fun t => readData t 30 == 0x13) = true := by decide
theorem test_sw_at_limit : faultIs (stepWord (testState [(7, 0x1000)] [] 0) 0x115700000000)
    .addressOutOfRange = true := by decide

/-! ### System and I/O, section 2.7 -/

theorem test_in_clks : nextWith (stepWord (testState [] [(clks, 7)] 0) 0x133100008000)
    (fun t => readReg t 3 == 7 && readIo t clks == 8 && t.events.contains (.hwAccess 0 8 .read 7)) = true := by decide
theorem test_in_23 : faultIs (stepWord (testState [(3, 5)] [] 0) 0x133100017000) .addressOutOfRange = true := by decide
theorem test_out_leds : nextWith (stepWord (testState [] [] 0) 0x1401020090FF)
    (fun t => readIo t leds == 0xFF && t.events.contains (.leds 0 0xFF)) = true := by decide
theorem test_out_clks_counts : nextWith (stepWord (testState [] [] 0) 0x140102008064)
    (fun t => readIo t clks == 101) = true := by decide
theorem test_reti_low_bits : nextWith (stepWord { testState [] [(irqreturn, 0xFFFFF123)] 0x040 with inService := true } 0x120000000000)
    (fun t => t.pc == 0x123 && !t.inService) = true := by decide
theorem test_halt : nextWith (stepWord { testState [] [(clks, 2)] 2 with cycle := 2 } 0x150000000000)
    (fun t => t.halted && t.pc == 2 && t.cycle == 3 && readIo t clks == 3) = true := by decide
theorem test_halted_stops : faultIs (step { State.reset with halted := true }) .stopped = true := by decide
theorem test_unknown_opcode : nextWith (stepWord (testState [] [] 7) 0x163000FFF800)
    (fun t => t.pc == 8 && readReg t 1 == 0xFFFFFFFF && readReg t 2 == 0xFFFFF800 &&
      t.events.contains (.diagUnknownOpcode 22)) = true := by decide

/-! ### Interrupts, timer, disk, monitor, section 2.8 -/

theorem test_vector : nextWith (stepWord (testState [] [(irq0enable, 2), (irq0status, 4), (irqhandler, 0xFFFFF040), (timermax, 7)] 5) 0)
    (fun t => readIo t irqreturn == 5 && t.pc == 0x041 && t.inService) = true := by decide
theorem test_timer_reset_match : nextWith (step State.reset) (fun t => readIo t irq0status == 1) = true := by decide
theorem test_timer_gated : nextWith (step { State.reset with cfg := ⟨4096, true, []⟩ })
    (fun t => readIo t irq0status == 0) = true := by decide
theorem test_timer_wraps : readIo (stageTimer (testState [] [(timerenable, 1), (timercurrent, 0xFFFFFFFF)] 0)) timercurrent = 0 := by decide
theorem test_disk_complete : nextWith (stageDisk { testState [] [(diskcmd, 1), (diskstatus, 1)] 0 with diskBusy := true, diskDone := 50, cycle := 50 })
    (fun t => readIo t diskcmd == 0 && readIo t diskstatus == 0 && readIo t irq1status == 1 && !t.diskBusy) = true := by decide
theorem test_disk_accept : nextWith (stageDisk { testState [] [(diskcmd, 1), (disksector, 3), (diskbuffer, 0x100)] 0 with cycle := 50, disk := [(387, 9)] })
    (fun t => t.diskBusy && t.diskDone == 1074 && readIo t diskstatus == 1 && readData t 259 == 9) = true := by decide +kernel
theorem test_disk_buffer_limit : faultIs (stageDisk (testState [] [(diskcmd, 1), (diskbuffer, 3969)] 0)) .diskRange = true := by decide
theorem test_monitor_low_byte : nextWith (monitorService (testState [] [(monitorcmd, 1), (monitoraddr, 0xFFFF), (monitordata, 0x1FF)] 0))
    (fun t => Memory.read t.fb 65535 == 0xFF) = true := by decide
theorem test_monitor_limit : faultIs (monitorService (testState [] [(monitorcmd, 1), (monitoraddr, 0x10000)] 0)) .monitorRange = true := by decide
theorem test_external_pulse : nextWith (step { testState [] [(irq2enable, 1), (irqhandler, 0x10)] 2 with cycle := 4, cfg := ⟨4096, false, [4, 6, 15]⟩ })
    (fun t => t.inService && readIo t irqreturn == 2 && readIo t irq2status == 0 && t.schedIdx == 1) = true := by decide

/-! ### A run and its report (R134, R135, R258, R262, R263) -/

/-- The report of a run, when the run goes on. -/
def reportWith (o : Host.Outcome RunEnd Fault Refusal) (p : Report → Bool) : Bool :=
  match o with
  | .next e => p (report e)
  | _ => false

theorem test_report_halt : reportWith (runToHalt 5 (withWord State.reset 0x150000000000))
    (fun r => r.final && r.cycle == 1 && r.trace == [⟨0, 0x150000000000, Vector.replicate 16 0⟩] && r.accesses == []) = true := by decide
theorem test_report_bound : reportWith (runToHalt 1 (withWord State.reset 0x1401020090FF))
    (fun r => !r.final && r.accesses == [⟨0, 9, .write, 0xFF⟩] && r.leds == [⟨0, 0xFF⟩] && r.display7seg == [] &&
      r.trace.length == 1) = true := by decide

/-! ### Witnesses: for each statement with hypotheses, states and operands that meet them, at the ends of ranges

`witness_<Name>` belongs to `Obligations.<Name>`. -/

/-- The next step of `s` fetches the word of this instruction. -/
def fetches (s : State) (i : Instr) : Bool :=
  match fetched s with
  | .ok j => decide (j = i)
  | .error _ => false

theorem fetched_of_fetches {s : State} {i : Instr} (h : fetches s i = true) : fetched s = .ok i := by
  unfold fetches at h
  split at h
  · next hj => rw [hj, of_decide_eq_true h]
  · cases h

theorem noOutTo_of_other {s : State} {i : Instr} (h : fetches s i = true) (hi : ∀ f, i ≠ .output f) (n : IoIdx) :
    NoOutTo s n := fun f hf => absurd (Except.ok.inj ((fetched_of_fetches h).symm.trans hf)) (hi f)

theorem noOutTo_of_output {s : State} {f : Fields} {n : IoIdx} (h : fetches s (.output f) = true)
    (hn : effectiveAddress f (beforeExecute s) ≠ (n.val : Int)) : NoOutTo s n := by
  intro g hg
  obtain rfl : f = g := Instr.output.inj (Except.ok.inj ((fetched_of_fetches h).symm.trans hg))
  exact hn

theorem next_of_nextWith {o : Result} {p : State → Bool} (h : nextWith o p = true) :
    ∃ t, o = .next t ∧ p t = true := by
  cases o with
  | next t => exact ⟨t, rfl, h⟩
  | fault r => cases h
  | refused r => cases h

/-- `testState` with an instruction word and the counters of a disk transfer in flight. -/
def diskState (cycle done : Nat) (w : Nat) : State :=
  withWord { testState [] [(diskcmd, 1), (diskstatus, 1)] 0 with diskBusy := true, diskDone := done, cycle := cycle } w

theorem witness_DecodeReadsBackEncode : (Instr.mac ⟨15, 0, 7, 9, 2047, -2048⟩).wf = true := by decide
theorem witness_EncodeReadsBackDecode : ∃ i, decode 0x15FEDCBA9876#48 = .ok i := ⟨_, rfl⟩
theorem witness_EveryWordIsAnInstructionOrAnUnknownOpcode :
    (∃ i, decode 0x150000000000#48 = .ok i) ∧ 22 ≤ (opcodeOf 0x160000000000#48).toNat ∧
      22 ≤ (opcodeOf 0xFF0000000000#48).toNat := ⟨⟨_, rfl⟩, by decide, by decide⟩
theorem witness_R0ReadsZeroAndDiscardsWrites :
    effectiveAddress ⟨0, 3, 4, 5, 0, 0⟩ State.reset = 0 ∧ (0 : Int) < State.reset.cfg.dmemWords ∧
      effectiveAddress ⟨0, 3, 4, 5, 0, 0⟩ (testState [(3, 4095)] [] 0) = 4095 ∧
      effectiveAddress ⟨0, 3, 4, 5, 0, 0⟩ (testState [(3, 22)] [] 0) = ((22 : IoIdx).val : Int) := by decide
theorem witness_ReloadLoadsTheSignedImmediates :
    (imm1Of 0x0000007FF800#48).toNat = 2047 ∧ (imm2Of 0x0000007FF800#48).toNat = 2048 ∧
      (imm1Of 0x0000008007FF#48).toNat = 2048 ∧ (imm2Of 0x0000008007FF#48).toNat = 2047 := by decide
theorem witness_OrdinaryRegistersChangeOnlyThroughRd :
    nextWith (step (withWord State.reset 0x003001005000)) (fun t => decide (readReg t 3 ≠ readReg (withWord State.reset 0x003001005000) 3)) = true := by decide
/-- R4 = 0x80000001 shifted by R5 into R3: the instruction goes on, moves R3 alone, and leaves the pc to stage S9. -/
def shiftGoesOn (i : Fields → Instr) (amount : Word) : Bool :=
  nextWith (exec (i ⟨3, 4, 5, 6, 0, 0⟩) (testState [(4, 0x80000001), (5, amount), (6, 7)] [(leds, 2)] 9))
    (fun t => readReg t 4 == 0x80000001 && readReg t 5 == amount && readReg t 6 == 7 && t.pc == 9 && !t.pcSet &&
      readIo t leds == 2 && t.events == [])

/-- Every clause of the three shifts at its ends: the amounts -1, -2^31, 0, 30, 31 and 32. -/
theorem witness_shift_amounts :
    signedReg (testState [(5, 0xFFFFFFFF)] [] 0) 5 = -1 ∧ signedReg (testState [(5, 0x80000000)] [] 0) 5 = -2 ^ 31 ∧
      signedReg State.reset 5 = 0 ∧ signedReg (testState [(5, 30)] [] 0) 5 = 30 ∧
      signedReg (testState [(5, 31)] [] 0) 5 = 31 ∧ signedReg (testState [(5, 32)] [] 0) 5 = 32 := by decide
/-- With a negative amount the shift completes, whatever SHIFT_NEG is. -/
theorem witness_SllShiftsByTheWholeAmount : shiftGoesOn .sll 0xFFFFFFFF = true ∧ shiftGoesOn .sll 0x80000000 = true ∧
    shiftGoesOn .sll 0 = true ∧ shiftGoesOn .sll 32 = true := by decide
/-- With a negative amount the shift completes, whatever SHIFT_NEG is. -/
theorem witness_SraShiftsByTheWholeAmount : shiftGoesOn .sra 0xFFFFFFFF = true ∧ shiftGoesOn .sra 0x80000000 = true ∧
    shiftGoesOn .sra 0 = true ∧ shiftGoesOn .sra 31 = true := by decide
/-- With a negative amount the shift completes, whatever SHIFT_NEG is. -/
theorem witness_SrlShiftsByTheWholeAmount : shiftGoesOn .srl 0xFFFFFFFF = true ∧ shiftGoesOn .srl 0x80000000 = true ∧
    shiftGoesOn .srl 0 = true ∧ shiftGoesOn .srl 32 = true := by decide
/-- The value written with a negative amount is SHIFT_NEG of the shift, the value and the amount. -/
theorem test_shift_negative_is_free :
    exec (.sll ⟨3, 4, 5, 6, 0, 0⟩) (testState [(4, 1), (5, 0xFFFFFFFF)] [] 0) =
      .next (writeReg (testState [(4, 1), (5, 0xFFFFFFFF)] [] 0) 3 (Config.shiftNeg .sll 1 0xFFFFFFFF)) := rfl
/-- The whole cycle of a shift by -1 (from an immediate): it goes on and the pc advances. -/
theorem test_shift_negative_step : nextWith (stepWord State.reset 0x063410FFF000) (fun t => t.pc == 1 && t.cycle == 1) = true := by decide
theorem witness_RightShiftsSettleMonotonically :
    (0x80000000#32).msb = true ∧ sraBy 0x80000000#32 31 = 0xFFFFFFFF#32 ∧ sraBy 0x80000000#32 30 ≠ 0xFFFFFFFF#32 := by decide

/-- Both cases of a branch: its word, two values of R4 (R5 is 0) for which it is taken and not taken. -/
def branchBoth (w : Nat) (i : Instr) (taken untaken : Word) : Bool :=
  fetches (withWord (testState [(4, taken)] [] 0xFFF) w) i && fetches (withWord (testState [(4, untaken)] [] 0xFFF) w) i &&
    nextWith (step (withWord (testState [(4, taken)] [] 0xFFF) w)) (fun t => t.pc == 0x200) &&
    nextWith (step (withWord (testState [(4, untaken)] [] 0xFFF) w)) (fun t => t.pc == 0)

theorem witness_BranchStepAdvancesOrJumps :
    branchBoth 0x090451200000 (.beq ⟨0, 4, 5, 1, 512, 0⟩) 0 1 = true ∧
    branchBoth 0x0A0451200000 (.bne ⟨0, 4, 5, 1, 512, 0⟩) 1 0 = true ∧
    branchBoth 0x0B0451200000 (.blt ⟨0, 4, 5, 1, 512, 0⟩) 0xFFFFFFFF 0 = true ∧
    branchBoth 0x0C0451200000 (.bgt ⟨0, 4, 5, 1, 512, 0⟩) 1 0 = true ∧
    branchBoth 0x0D0451200000 (.ble ⟨0, 4, 5, 1, 512, 0⟩) 0 1 = true ∧
    branchBoth 0x0E0451200000 (.bge ⟨0, 4, 5, 1, 512, 0⟩) 0 0xFFFFFFFF = true := by decide
theorem witness_BranchesCompareSignedAndSetThePc : ∃ s u : State,
    signedReg s 4 = signedReg s 5 ∧ signedReg u 4 < signedReg u 5 ∧ signedReg u 5 > signedReg u 4 :=
  ⟨State.reset, testState [(4, 0x80000000), (5, 0x7FFFFFFF)] [] 0, by decide⟩
/-- The three ways a cycle ends for the pc: set by a jump, kept by `halt`, advanced past 4095. -/
theorem witness_PcAdvancesUnlessSetOrHalted :
    nextWith (stageExecute 0x0FF001100000#48 (beforeExecute (withWord State.reset 0x0FF001100000))) (·.pcSet) = true ∧
    nextWith (step (withWord State.reset 0x0FF001100000)) (fun t => t.pc == 0x100) = true ∧
    nextWith (stageExecute 0x150000000000#48 (beforeExecute (withWord State.reset 0x150000000000))) (·.halted) = true ∧
    nextWith (step (withWord (testState [] [] 0xFFF) 0x150000000000)) (fun t => t.pc == 0xFFF) = true ∧
    nextWith (stageExecute 0#48 (beforeExecute (testState [] [] 0xFFF))) (fun t => !t.pcSet && !t.halted) = true ∧
    nextWith (step (testState [] [] 0xFFF)) (fun t => t.pc == 0) = true := by decide
theorem witness_LwLoadsAndAdds_SwStoresTheSum :
    effectiveAddress ⟨6, 3, 4, 5, 0, 0⟩ State.reset = ((0 : Nat) : Int) ∧ 0 < State.reset.cfg.dmemWords ∧
      effectiveAddress ⟨6, 3, 4, 5, 0, 0⟩ (testState [(3, 4096), (4, 0xFFFFFFFF)] [] 0) = ((4095 : Nat) : Int) ∧
      4095 < (testState [(3, 4096), (4, 0xFFFFFFFF)] [] 0).cfg.dmemWords := by decide
theorem witness_AddressesOutsideStop :
    effectiveAddress ⟨6, 3, 4, 5, 0, 0⟩ (testState [(3, 0x80000000), (4, 0xFFFFFFFF)] [] 0) = -2 ^ 31 - 1 ∧
      effectiveAddress ⟨6, 3, 4, 5, 0, 0⟩ (testState [(3, 4096)] [] 0) = 4096 ∧
      effectiveAddress ⟨6, 3, 4, 5, 0, 0⟩ (testState [(3, 23)] [] 0) = 23 := by decide
theorem witness_NegativeAddressHasNoEffect :
    effectiveAddress ⟨6, 3, 4, 5, 0, 0⟩ (testState [(3, 0x80000000)] [] 0) = -2 ^ 31 ∧
      effectiveAddress ⟨6, 3, 4, 5, 0, 0⟩ (testState [(3, 0xFFFFFFFF)] [] 0) = -1 := by decide

/-- The word's instruction has the address -1 in R3 and its step goes on. -/
def negativeStep (w : Nat) (i : Fields → Instr) : Bool :=
  fetches (withWord (testState [(3, 0xFFFFFFFF)] [] 0) w) (i ⟨6, 3, 4, 5, 0, 0⟩) &&
    decide (effectiveAddress ⟨6, 3, 4, 5, 0, 0⟩ (beforeExecute (withWord (testState [(3, 0xFFFFFFFF)] [] 0) w)) = -1) &&
    nextWith (step (withWord (testState [(3, 0xFFFFFFFF)] [] 0) w)) (fun _ => true)

theorem witness_NegativeAddressStepSkips : negativeStep 0x106345000000 .lw = true ∧ negativeStep 0x116345000000 .sw = true ∧
    negativeStep 0x136345000000 .input = true ∧ negativeStep 0x146345000000 .output = true := by decide
theorem witness_InReadsAnIoRegister_OutWritesAnIoRegister :
    effectiveAddress ⟨6, 3, 4, 5, 0, 0⟩ State.reset = ((0 : IoIdx).val : Int) ∧
      effectiveAddress ⟨6, 3, 4, 5, 0, 0⟩ (testState [(3, 22)] [] 0) = ((22 : IoIdx).val : Int) := by decide

/-- `out` of R2 = 3 to the I/O register of that number, from a state with an idle disk; the value after the cycle. -/
def outStep (n : IoIdx) (io : List (IoIdx × Word)) (after : Word) : Bool :=
  let s := withWord (testState [] io 0) (0x140102000003 + n.val * 4096)
  fetches s (.output ⟨0, 1, 0, 2, n.val, 3⟩) &&
    decide (effectiveAddress ⟨0, 1, 0, 2, n.val, 3⟩ (beforeExecute s) = (n.val : Int)) &&
    nextWith (step s) (fun t => decide (readIo t n = after))

theorem witness_OutValueAfterTheCycle : outStep irq0enable [] 3 = true ∧ outStep monitorcmd [] 3 = true ∧
    outStep clks [] 4 = true ∧ outStep irq2status [] 0 = true ∧ outStep timercurrent [] 3 = true ∧
    outStep timercurrent [(timerenable, 1)] 4 = true ∧ outStep irq1status [] 3 = true ∧ outStep diskstatus [] 3 = true := by decide
theorem witness_OutValueAfterTheCycle_diskcmd : outStep diskcmd [] 3 = true := by decide +kernel
theorem witness_ConfigurationRegistersChangeOnlyByOut : outStep irq0enable [] 3 = true ∧ outStep timermax [] 3 = true ∧
    outStep monitorcmd [] 3 = true := by decide
/-- The registers that hardware writes, in cycles without an `out`: an entry, no entry, a completion, a cycle in
flight, an idle cycle. -/
theorem witness_ConfigurationRegistersChangeOnlyByOut_hardware :
    fetches (testState [] [(irq0enable, 1), (irq0status, 1)] 5) (.add ⟨0, 0, 0, 0, 0, 0⟩) = true ∧
    interruptTaken (testState [] [(irq0enable, 1), (irq0status, 1)] 5) = true ∧
    nextWith (step (testState [] [(irq0enable, 1), (irq0status, 1)] 5)) (fun t => readIo t irqreturn == 5) = true ∧
    interruptTaken (testState [] [(irqreturn, 7)] 5) = false ∧
    nextWith (step (testState [] [(irqreturn, 7)] 5)) (fun t => readIo t irqreturn == 7) = true ∧
    fetches (diskState 50 50 0) (.add ⟨0, 0, 0, 0, 0, 0⟩) = true ∧ transferCompletes (diskState 50 50 0) = true ∧
    nextWith (step (diskState 50 50 0)) (fun t => readIo t irq1status == 1 && readIo t diskcmd == 0 && readIo t diskstatus == 0) = true ∧
    transferCompletes (diskState 49 50 0) = false ∧
    nextWith (step (diskState 49 50 0)) (fun t => readIo t irq1status == 0 && readIo t diskcmd == 1 && readIo t diskstatus == 1) = true := by decide
/-- The acceptance clause: an idle controller with a command, in a cycle without an `out`. -/
theorem witness_ConfigurationRegistersChangeOnlyByOut_acceptance :
    fetches (testState [] [(diskcmd, 1)] 0) (.add ⟨0, 0, 0, 0, 0, 0⟩) = true ∧ (testState [] [(diskcmd, 1)] 0).diskBusy = false ∧
    nextWith (step (testState [] [(diskcmd, 1)] 0)) (fun t => t.diskBusy && readIo t diskstatus == 1) = true := by decide +kernel
/-- The premises of these clauses together, in an idle state that takes an interrupt and in a completing cycle. -/
theorem witness_ConfigurationRegistersChangeOnlyByOut_premises :
    (∀ n, NoOutTo (testState [] [(irq0enable, 1), (irq0status, 1)] 5) n) ∧ (∀ n, NoOutTo (diskState 50 50 0) n) ∧
      (∃ t, step (testState [] [(irq0enable, 1), (irq0status, 1)] 5) = .next t) ∧ ∃ t, step (diskState 50 50 0) = .next t := by
  obtain ⟨hf, _, ha, _, _, hg, _, hb, _, _⟩ := witness_ConfigurationRegistersChangeOnlyByOut_hardware
  obtain ⟨t, ht, _⟩ := next_of_nextWith ha
  obtain ⟨u, hu, _⟩ := next_of_nextWith hb
  exact ⟨noOutTo_of_other hf (by simp), noOutTo_of_other hg (by simp), ⟨t, ht⟩, ⟨u, hu⟩⟩
theorem witness_OnlyHaltStopsTheMachine :
    nextWith (step (withWord State.reset 0x150000000000)) (·.halted) = true ∧
      nextWith (step State.reset) (fun t => !t.halted) = true := by decide
theorem witness_UnknownOpcodeIsANoOperation :
    22 ≤ (opcodeOf (fetchWord (beforeFetch (withWord State.reset 0x160000000000)))).toNat ∧
      nextWith (step (withWord State.reset 0x160000000000)) (fun _ => true) = true ∧
      22 ≤ (opcodeOf (fetchWord (beforeFetch (withWord State.reset 0xFF0000000000)))).toNat ∧
      nextWith (step (withWord State.reset 0xFF0000000000)) (fun _ => true) = true := by decide
theorem witness_StepRunsTheDecodedInstruction :
    (withWord State.reset 0x003001005000).halted = false ∧
      fetches (withWord State.reset 0x003001005000) (.add ⟨3, 0, 0, 1, 5, 0⟩) = true ∧
      nextWith (exec (.add ⟨3, 0, 0, 1, 5, 0⟩) (beforeExecute (withWord State.reset 0x003001005000))) (fun _ => true) = true := by decide
/-- The word `out` of R2 = 3 to I/O register `n`, fetched with the timer enabled at its bound. -/
def outBeside (n : IoIdx) : State :=
  withWord (testState [] [(timerenable, 1), (timercurrent, 9), (timermax, 9)] 0) (0x140102000003 + n.val * 4096)

/-- A cycle that executes an `out`, the one to irq0status as in a timer handler, keeps every premise on other
registers; so does a cycle that executes no `out`. -/
theorem witness_EveryStepCountsOneCycle_TimerLeftAloneCounts : ∃ t : State, step (outBeside irq0status) = .next t ∧
    NoOutTo (outBeside irq0status) clks ∧ NoOutTo (outBeside irq0status) timercurrent ∧
    NoOutTo (outBeside irq0status) timermax ∧ NoOutTo (outBeside irq0status) timerenable ∧
    readIo (outBeside irq0status) clks = wrap32 ((outBeside irq0status).cycle : Int) ∧
    timerMatches (outBeside irq0status) = true ∧ readIo t timercurrent = 1 ∧ readIo t irq0status = 3 := by
  have hf : fetches (outBeside irq0status) (.output ⟨0, 1, 0, 2, 3, 3⟩) = true := by decide
  obtain ⟨t, ht, hp⟩ := next_of_nextWith (show nextWith (step (outBeside irq0status))
    (fun t => readIo t timercurrent == 1 && readIo t irq0status == 3) = true by decide)
  simp only [Bool.and_eq_true, beq_iff_eq] at hp
  exact ⟨t, ht, noOutTo_of_output hf (by decide), noOutTo_of_output hf (by decide), noOutTo_of_output hf (by decide),
    noOutTo_of_output hf (by decide), by decide, by decide, hp.1, hp.2⟩
/-- The other premises of the same statements: no `out` at all, without a match. -/
theorem witness_TimerLeftAloneCounts_noOut : ∃ t : State, step (testState [] [(timermax, 9)] 0) = .next t ∧
    NoOutTo (testState [] [(timermax, 9)] 0) irq0status ∧ NoOutTo (testState [] [(timermax, 9)] 0) timercurrent ∧
    timerMatches (testState [] [(timermax, 9)] 0) = false := by
  obtain ⟨t, ht, _⟩ := next_of_nextWith (show nextWith (step (testState [] [(timermax, 9)] 0)) (fun _ => true) = true by decide)
  have hf : fetches (testState [] [(timermax, 9)] 0) (.add ⟨0, 0, 0, 0, 0, 0⟩) = true := by decide
  exact ⟨t, ht, noOutTo_of_other hf (by simp) _, noOutTo_of_other hf (by simp) _, by decide⟩
theorem witness_PulseIsClearAfterEveryStep_InServiceFollowsEntryAndReti :
    nextWith (step State.reset) (fun _ => true) = true ∧ fetches State.reset (.add ⟨0, 0, 0, 0, 0, 0⟩) = true ∧
      fetches (withWord { State.reset with inService := true } 0x120000000000) (.reti ⟨0, 0, 0, 0, 0, 0⟩) = true ∧
      nextWith (step (withWord { State.reset with inService := true } 0x120000000000)) (fun t => !t.inService) = true := by decide
theorem witness_InstructionMemoryIsConstant : nextWith (runCycles 2 State.reset) (fun t => t.cycle == 2) = true := by decide
/-- A store at 4095, and a monitor write at the last cell. -/
theorem witness_MemoriesChangeOnlyThroughTheirWriters :
    nextWith (step (withWord (testState [(3, 4095), (5, 7)] [] 0) 0x110305000000)) (fun t => decide (readData t 4095 ≠ 0)) = true ∧
    nextWith (step (testState [] [(monitorcmd, 1), (monitoraddr, 0xFFFF), (monitordata, 0x1FF)] 0))
      (fun t => decide (Memory.read t.fb 65535 ≠ 0)) = true := by decide
/-- A disk write and a disk read at the last sector and the highest buffer. -/
theorem witness_MemoriesChangeOnlyThroughTheirWriters_disk :
    nextWith (step { testState [] [(diskcmd, 1), (disksector, 127), (diskbuffer, 3968)] 0 with disk := [(16383, 5)] })
      (fun t => decide (readData t 4095 = 5)) = true ∧
    nextWith (step { testState [] [(diskcmd, 2), (disksector, 127), (diskbuffer, 3968)] 0 with dmem := [(4095, 6)] })
      (fun t => decide (Memory.read t.disk 16383 = 6)) = true := by decide +kernel
/-- Each of the three lines alone is taken; none is taken while one is in service. -/
theorem witness_InterruptEntrySavesAndVectors :
    interruptTaken (testState [] [(irq0enable, 1), (irq0status, 1)] 0xFFF) = true ∧
      interruptTaken (testState [] [(irq1enable, 1), (irq1status, 1)] 0) = true ∧
      interruptTaken (testState [] [(irq2enable, 1), (irq2status, 1)] 0) = true ∧
      interruptTaken { testState [] [(irq0enable, 1), (irq0status, 1)] 0 with inService := true } = false ∧
      interruptTaken State.reset = false := by decide
theorem witness_ReturnResumesTheInterruptedProgram :
    interruptTaken (testState [] [(irq0enable, 1), (irq0status, 1)] 0xFFF) = true ∧
      readIo (testState [] [(irqreturn, 0xFFF)] 0) irqreturn =
        readIo (beforeFetch (testState [] [(irq0enable, 1), (irq0status, 1)] 0xFFF)) irqreturn := by decide

/-- A `reti` in service with one line's enable and status set. -/
def retiState (enable status : IoIdx) : State :=
  withWord { testState [] [(enable, 1), (status, 1), (timermax, 9)] 0 with inService := true } 0x120000000000

theorem witness_PendingStatusReentersAfterReti :
    fetches (retiState irq0enable irq0status) (.reti ⟨0, 0, 0, 0, 0, 0⟩) = true ∧
      nextWith (step (retiState irq0enable irq0status)) (fun t => readIo t irq0enable != 0 && readIo t irq0status != 0) = true ∧
      fetches (retiState irq1enable irq1status) (.reti ⟨0, 0, 0, 0, 0, 0⟩) = true ∧
      nextWith (step (retiState irq1enable irq1status)) (fun t => readIo t irq1enable != 0 && readIo t irq1status != 0) = true := by decide
theorem witness_TimerComparePendsAndClears :
    readIo State.reset timercurrent = readIo State.reset timermax ∧ State.reset.cfg.timerMatchGated = false ∧
      readIo (testState [] [(timermax, 9)] 0) timercurrent ≠ readIo (testState [] [(timermax, 9)] 0) timermax ∧
      timerMatches { State.reset with cfg := ⟨4096, true, []⟩ } = false ∧
      timerMatches { testState [] [(timerenable, 1)] 0 with cfg := ⟨4096, true, []⟩ } = true := by decide

/-- The timer enabled, its count at its bound `max`. -/
def timerState (max : Word) : State := testState [] [(timerenable, 1), (timercurrent, max), (timermax, max)] 0

theorem timerState_meets (max : Word) (hr : nextWith (runCycles 1 (timerState max)) (fun _ => true) = true)
    (hf : fetches (timerState max) (.add ⟨0, 0, 0, 0, 0, 0⟩) = true) :
    (∀ m u, m < 1 → runCycles m (timerState max) = .next u →
      NoOutTo u timercurrent ∧ NoOutTo u timermax ∧ NoOutTo u timerenable) ∧
      ∃ t, runCycles 1 (timerState max) = .next t := by
  obtain ⟨t, ht, _⟩ := next_of_nextWith hr
  refine ⟨fun m u hm hu => ?_, t, ht⟩
  obtain rfl : m = 0 := by omega
  injection hu with hu
  rw [← hu]
  exact ⟨noOutTo_of_other hf (by simp) _, noOutTo_of_other hf (by simp) _, noOutTo_of_other hf (by simp) _⟩

/-- The bound 1 and one cycle: a run of exactly one period. -/
theorem witness_TimerPeriodIsTimermax : readIo (timerState 1) timercurrent = readIo (timerState 1) timermax ∧
    readIo (timerState 1) timermax ≠ 0#32 ∧ readIo (timerState 1) timerenable ≠ 0#32 ∧
    1 ≤ (readIo (timerState 1) timermax).toNat ∧
    (∀ m u, m < 1 → runCycles m (timerState 1) = .next u →
      NoOutTo u timercurrent ∧ NoOutTo u timermax ∧ NoOutTo u timerenable) ∧
    ∃ t, runCycles 1 (timerState 1) = .next t :=
  ⟨by decide, by decide, by decide, by decide, timerState_meets 1 (by decide) (by decide)⟩
/-- The bound 9 and one cycle that executes the `out` to irq0status: a run shorter than the period. -/
theorem witness_TimerPeriodIsTimermax_shorter :
    readIo (outBeside irq0status) timercurrent = readIo (outBeside irq0status) timermax ∧
    readIo (outBeside irq0status) timermax ≠ 0#32 ∧ readIo (outBeside irq0status) timerenable ≠ 0#32 ∧
    1 ≤ (readIo (outBeside irq0status) timermax).toNat ∧
    (∀ m u, m < 1 → runCycles m (outBeside irq0status) = .next u →
      NoOutTo u timercurrent ∧ NoOutTo u timermax ∧ NoOutTo u timerenable) ∧
    ∃ t, runCycles 1 (outBeside irq0status) = .next t := by
  obtain ⟨t, ht, _, h1, h2, h3, _⟩ := witness_EveryStepCountsOneCycle_TimerLeftAloneCounts
  refine ⟨by decide, by decide, by decide, by decide, fun m u hm hu => ?_, t, ?_⟩
  · obtain rfl : m = 0 := by omega
    injection hu with hu
    rw [← hu]
    exact ⟨h1, h2, h3⟩
  · exact runCycles_succ_eq_next.mpr ⟨_, rfl, ht⟩

/-- The schedule's first entry is this cycle; and it is a later one. -/
theorem witness_ExternalLine_SchedulePointer : ∀ first ∈ [0, 7],
    ScheduleInvariant { State.reset with cfg := ⟨4096, false, [first, 9]⟩ } ∧
      nextWith (step { State.reset with cfg := ⟨4096, false, [first, 9]⟩ }) (fun _ => true) = true ∧
      (0 ∈ [first, 9] ↔ first = 0) := by
  intro first hf
  refine ⟨⟨?_, fun j e hj => absurd hj (Nat.not_lt_zero j), fun j e _ _ => Nat.zero_le e⟩, ?_, ?_⟩
  · revert hf; revert first; decide
  · revert hf; revert first; decide
  · revert hf; revert first; decide
/-- A disk command with its sector and buffer, the controller idle. -/
def commandState (command sector buffer : Word) : State :=
  testState [] [(diskcmd, command), (disksector, sector), (diskbuffer, buffer)] 0

/-- The hypotheses of an acceptance. -/
def acceptable (s : State) : Bool :=
  !s.diskBusy && readIo s diskcmd != 0 && decide (0 ≤ (readIo s disksector).toInt) &&
    decide ((readIo s disksector).toInt ≤ 127) && decide (0 ≤ (readIo s diskbuffer).toInt) &&
    decide ((readIo s diskbuffer).toInt + 127 < s.cfg.dmemWords)

/-- Both ends of the sector range and of the buffer range, with both commands. -/
theorem witness_DiskAcceptanceMovesOneSector :
    acceptable (commandState 1 0 0) = true ∧ acceptable (commandState 2 0 0) = true ∧
      acceptable (commandState 1 127 3968) = true ∧ acceptable (commandState 2 127 3968) = true := by decide
/-- Completion, waiting and idling. -/
theorem witness_DiskStageOtherwise :
    (diskState 50 50 0).diskBusy = true ∧ (diskState 50 50 0).cycle = (diskState 50 50 0).diskDone ∧
    (diskState 49 50 0).diskBusy = true ∧ (diskState 49 50 0).cycle ≠ (diskState 49 50 0).diskDone ∧
    State.reset.diskBusy = false ∧ readIo State.reset diskcmd = 0#32 := by decide
/-- The four bounds just passed. -/
theorem witness_DiskStageOtherwise_faults :
    faultIs (stageDisk (commandState 1 0xFFFFFFFF 0)) .diskRange = true ∧
      faultIs (stageDisk (commandState 1 128 0)) .diskRange = true ∧
      faultIs (stageDisk (commandState 1 0 0xFFFFFFFF)) .diskRange = true ∧
      faultIs (stageDisk (commandState 1 0 3969)) .diskRange = true := by decide
/-- In flight with one cycle to go (a run of one cycle), and in its completion cycle (a run of one cycle). -/
theorem witness_TransferCompletesAfterExactlyItsLatency :
    (diskState 49 50 0).diskBusy = true ∧ (diskState 49 50 0).cycle ≤ (diskState 49 50 0).diskDone ∧
      1 ≤ (diskState 49 50 0).diskDone - (diskState 49 50 0).cycle ∧
      nextWith (runCycles 1 (diskState 49 50 0)) (·.diskBusy) = true ∧
      1 = (diskState 50 50 0).diskDone - (diskState 50 50 0).cycle + 1 ∧
      nextWith (runCycles 1 (diskState 50 50 0)) (fun t => !t.diskBusy) = true := by decide
theorem witness_MonitorWritesItsCell :
    (readIo (testState [] [(monitorcmd, 1), (monitoraddr, 0xFFFF)] 0) monitoraddr).toNat = 65535 ∧
      readIo (testState [] [(monitorcmd, 1), (monitoraddr, 0xFFFF)] 0) monitorcmd = 1#32 ∧
      (readIo (testState [] [(monitorcmd, 1), (monitoraddr, 0x10000)] 0) monitoraddr).toNat = 65536 ∧
      readIo State.reset monitorcmd ≠ 1#32 ∧ readIo (testState [] [(monitorcmd, 2)] 0) monitorcmd ≠ 1#32 := by decide
theorem witness_LedAndDisplayChangesAreLogged : outStep leds [] 3 = true ∧ outStep display7seg [] 3 = true := by decide
/-- A launch that is not all empty. -/
theorem witness_LaunchMeetsTheInvariants :
    (Config.wf ⟨512, true, [3, 8]⟩) = true ∧ Memory.wf imemLines [(0, 0x150000000000#48)] = true ∧
      Memory.wf 512 [(1, 2#32), (511, 3#32)] = true ∧ Memory.wf diskWords [(16383, 1#32)] = true := by decide
/-- A state between cycles with every memory in use and a transfer in flight. -/
theorem witness_EveryStepKeepsTheInvariant : ∃ s t : State, Invariant s ∧ step s = .next t ∧ s.diskBusy = true := by
  let s : State := { diskState 49 1072 0x110304005000 with dmem := [(0, 3#32), (4095, 4#32)], disk := [(16383, 5#32)], fb := [(65535, 6#8)] }
  obtain ⟨t, ht, _⟩ := next_of_nextWith (show nextWith (step s) (fun _ => true) = true by decide)
  exact ⟨s, t, ⟨by decide, by decide, by decide, by decide, by decide, by decide, by decide⟩, ht, by decide⟩

end Sys2Proof.Machine
end

/-! PROOFS. What a cycle changes in the general registers, in the I/O bank and in the in-service latch: the writers
of `Effect` in stage S5 and the stages' own writes around it. -/

namespace Sys2Proof.Machine

/-! ### General registers -/

/-- A jump link with destination R0 (R21): the link is discarded and the jump remains. -/
theorem execJal_rd_zero {f : Fields} (s : State) (h : f.rd = 0#4) :
    exec (.jal f) s = .next (jumpTo s (low12 (readReg s f.rm))) := by
  simp only [exec, execJal, h, writeReg_zero]

/-- A load from an address of the space with destination R0 (R21): nothing. -/
theorem execLw_rd_zero {f : Fields} {s : State} (h : f.rd = 0#4) (hlow : 0 ≤ effectiveAddress f s)
    (hhigh : effectiveAddress f s < s.cfg.dmemWords) : exec (.lw f) s = .next s := by
  have hlimit : (effectiveAddress f s).toNat < s.cfg.dmemWords := by omega
  have ha : effectiveAddress f s = ((effectiveAddress f s).toNat : Int) := by omega
  simp only [exec, execLw, checkedAccess_inRange ⟨_, hlimit⟩ ha, writeResult_eq, h, writeReg_zero]

/-- Settles O6: the write to R0 that each of the four instructions ends in is discarded. -/
theorem r0ReadsZeroAndDiscardsWrites : Obligations.R0ReadsZeroAndDiscardsWrites := by
  intro s
  refine ⟨readReg_zero s, writeReg_zero s, fun f hrd => ⟨?_, execJal_rd_zero s hrd, execLw_rd_zero hrd, ?_⟩⟩
  · simp only [exec, execAdd, aluThree, writeResult_eq, hrd, writeReg_zero]
  · intro n hn
    simp only [exec, execIn, checkedAccess_inRange n hn, hrd, writeReg_zero]

/-- The twelve instructions that can change a general register are those of `writesRd` (R23). -/
theorem ExecuteEffect.writesRd_of_reg_changed {w : InstrWord} {b s5 : State} (e : ExecuteEffect w b s5) {r : RegIdx}
    (h : readReg s5 r ≠ readReg b r) : ∃ i, decode w = .ok i ∧ writesRd i = true ∧ i.fields.rd = r := by
  obtain ⟨i, hdecode, hrd, f, hi⟩ := e.reg_changed h
  refine ⟨i, hdecode, ?_, hrd⟩
  rcases hi with rfl | rfl | rfl | rfl | rfl | rfl | rfl | rfl | rfl | rfl | rfl | rfl <;> rfl

/-- Settles O8: outside stage S5 the registers from R3 on stay. -/
theorem ordinaryRegistersChangeOnlyThroughRd : Obligations.OrdinaryRegistersChangeOnlyThroughRd := by
  intro s t r _ h1 h2 h hchanged
  obtain ⟨_, w, b, s5, rfl, -, start, -, execute, finish⟩ := step_cases h
  have hbefore : readReg b r = readReg s r := by rw [start.regs, if_neg h2, if_neg h1]
  apply execute.writesRd_of_reg_changed
  rwa [hbefore, ← readReg_congr finish.regs r]

/-! ### The in-service latch -/

theorem interruptTaken_iff (s : State) :
    interruptTaken s = true ↔ irqRequest (stagePend (stageStart s)) = true ∧ s.inService = false := by
  simp only [interruptTaken, Bool.and_eq_true, Bool.not_eq_true']

/-- The latch before stage S5: set already, or by the entry of this cycle (R222). -/
theorem CycleStart.inService_eq {s b : State} {w : InstrWord} (start : CycleStart s b w) :
    b.inService = (s.inService || interruptTaken s) := by
  rw [start.inService, interruptTaken]
  cases s.inService <;> simp

/-- Settles O42: the entry in stage S2 alone sets the latch, `reti` in stage S5 alone clears it. -/
theorem inServiceFollowsEntryAndReti : Obligations.InServiceFollowsEntryAndReti := by
  intro s t h
  obtain ⟨_, w, b, s5, rfl, -, start, -, execute, finish⟩ := step_cases h
  obtain ⟨hreti, hother, -, -⟩ := execute.flags
  rw [finish.inService, ← start.inService_eq]
  exact ⟨hreti, hother⟩

/-! ### The I/O bank -/

/-- Stages S0 to S4 leave the I/O registers but for the two statuses of S1, the count and `irqreturn`. -/
theorem CycleStart.io_kept {s b : State} {w : InstrWord} (start : CycleStart s b w) {n : IoIdx}
    (h : n ∉ [irq2status, irq0status, timercurrent, irqreturn]) : readIo b n = readIo s n := by
  simp only [List.mem_cons, List.not_mem_nil, or_false, not_or] at h
  obtain ⟨h2, h0, htimer, hreturn⟩ := h
  rw [start.io, readIo_pended]
  simp only [h2, h0, htimer, hreturn, false_and, and_false, if_false]

/-- What `irqreturn` holds before stage S5: the pc if the cycle took an interrupt (R222). -/
theorem CycleStart.io_irqreturn {s b : State} {w : InstrWord} (start : CycleStart s b w) :
    readIo b irqreturn = if interruptTaken s = true then zext12 s.pc else readIo s irqreturn := by
  have hpended : readIo (stagePend (stageStart s)) irqreturn = readIo s irqreturn := by
    rw [readIo_pended]
    simp [show irqreturn ≠ irq2status by decide, show irqreturn ≠ irq0status by decide,
      show irqreturn ≠ timercurrent by decide]
  rw [start.io, hpended]
  simp only [interruptTaken_iff, true_and]

/-- Stages S6 to S11 leave to stage S7 what is neither a counter nor the pulse. -/
theorem CycleEnd.io_afterDisk {b s5 t : State} (finish : CycleEnd b s5 t) {n : IoIdx}
    (h : n ∉ [irq2status, clks, timercurrent]) : readIo t n = afterDisk s5 n := by
  simp only [List.mem_cons, List.not_mem_nil, or_false, not_or] at h
  obtain ⟨hpulse, hclks, htimer⟩ := h
  rw [finish.io, if_neg hpulse, if_neg hclks, if_neg fun e => htimer e.1]

/-- Stages S6 to S11 leave every register that none of them writes. -/
theorem CycleEnd.io_kept {b s5 t : State} (finish : CycleEnd b s5 t) {n : IoIdx}
    (h : n ∉ [irq2status, clks, timercurrent]) (hdisk : n ∉ [irq1status, diskstatus, diskcmd]) :
    readIo t n = readIo s5 n := by
  rw [finish.io_afterDisk h, afterDisk_other hdisk]

/-- A cycle without an `out` to a register leaves it in stage S5. -/
theorem NoOutTo.io_kept {s s5 : State} {n : IoIdx} (h : NoOutTo s n)
    (execute : ExecuteEffect (fetchWord (beforeFetch s)) (beforeExecute s) s5) :
    readIo s5 n = readIo (beforeExecute s) n := by
  by_contra hc
  obtain ⟨f, hdecode, haddress, _⟩ := execute.io_changed hc
  exact h f hdecode haddress

/-- The I/O registers that a stage other than S5 writes (R27, column 'written by hardware'). -/
def hardwareWritten : List IoIdx :=
  [irq2status, irq0status, timercurrent, irqreturn, clks, irq1status, diskstatus, diskcmd]

/-- A register that no other stage writes changes in a cycle only by an `out` to it. -/
theorem step_io_changed_only_by_out {s t : State} {n : IoIdx} (h : step s = .next t) (hn : n ∉ hardwareWritten)
    (hchanged : readIo t n ≠ readIo s n) :
    ∃ f, fetched s = .ok (.output f) ∧ effectiveAddress f (beforeExecute s) = (n.val : Int) := by
  have hearly : [irq2status, irq0status, timercurrent, irqreturn] ⊆ hardwareWritten := by decide
  have hlate : [irq2status, clks, timercurrent] ⊆ hardwareWritten := by decide
  have hdisk : [irq1status, diskstatus, diskcmd] ⊆ hardwareWritten := by decide
  obtain ⟨_, w, b, s5, rfl, rfl, start, -, execute, finish⟩ := step_cases h
  rw [finish.io_kept (fun e => hn (hlate e)) (fun e => hn (hdisk e)), ← start.io_kept fun e => hn (hearly e)]
    at hchanged
  obtain ⟨f, hdecode, haddress, _⟩ := execute.io_changed hchanged
  exact ⟨f, hdecode, haddress⟩

/-- Stage S7 goes from idle to busy exactly by accepting a command (R243). -/
theorem DiskEffect.accepted_iff {s5 t : State} (e : DiskEffect s5 t) :
    (s5.diskBusy = false ∧ t.diskBusy = true) ↔ (s5.diskBusy = false ∧ readIo s5 diskcmd ≠ 0#32) := by
  cases e with
  | completes busy | waits busy => simp [busy]
  | idles idle none still => simp [none, still]
  | accepts idle command _ busy => simp [command, busy]

theorem transferCompletes_iff (s : State) :
    transferCompletes s = true ↔ s.diskBusy = true ∧ s.cycle = s.diskDone := by
  simp only [transferCompletes, Bool.and_eq_true, decide_eq_true_eq]

/-- What stage S7 leaves in one of its registers, by what it does: complete, accept, or neither (R243, R246). -/
theorem DiskEffect.afterDisk_eq {s5 t : State} (e : DiskEffect s5 t) {n : IoIdx}
    (hn : n ∈ [irq1status, diskstatus, diskcmd]) : afterDisk s5 n =
      if transferCompletes s5 = true then (if n = irq1status then 1#32 else 0#32)
      else if (s5.diskBusy = false ∧ t.diskBusy = true) ∧ n = diskstatus then 1#32 else readIo s5 n := by
  have hcleared : n ≠ irq1status → n = diskstatus ∨ n = diskcmd := fun h => by simpa [h] using hn
  simp only [transferCompletes_iff, e.accepted_iff, afterDisk]
  cases hbusy : s5.diskBusy with
  | false => simp
  | true =>
    by_cases hnow : s5.cycle = s5.diskDone
    · by_cases hirq : n = irq1status
      · simp [hnow, hirq]
      · simp [hnow, hirq, hcleared hirq]
    · simp [hnow]

/-- What a register of stage S7 holds after a cycle without an `out` to it. -/
theorem step_io_disk {s t : State} {n : IoIdx} (h : step s = .next t) (hn : n ∈ [irq1status, diskstatus, diskcmd])
    (hno : NoOutTo s n) : readIo t n =
      if transferCompletes s = true then (if n = irq1status then 1#32 else 0#32)
      else if (s.diskBusy = false ∧ t.diskBusy = true) ∧ n = diskstatus then 1#32 else readIo s n := by
  have hearly : ∀ m ∈ [irq1status, diskstatus, diskcmd],
      m ∉ [irq2status, irq0status, timercurrent, irqreturn] := by decide
  have hlate : ∀ m ∈ [irq1status, diskstatus, diskcmd], m ∉ [irq2status, clks, timercurrent] := by decide
  obtain ⟨_, w, b, s5, rfl, rfl, start, -, execute, finish⟩ := step_cases h
  have hs5 : readIo s5 n = readIo s n := by rw [hno.io_kept execute, start.io_kept (hearly n hn)]
  have hbusy : s5.diskBusy = s.diskBusy := execute.keeps.diskBusy.trans start.diskBusy
  have hcompletes : transferCompletes s5 = transferCompletes s := by
    simp only [transferCompletes, execute.keeps.diskBusy, execute.keeps.cycle, execute.keeps.diskDone, start.diskBusy,
      start.cycle, start.diskDone]
  rw [finish.io_afterDisk (hlate n hn), finish.disk.afterDisk_eq hn, hcompletes, hs5]
  simp only [hbusy]

/-- Settles O29: the fifteen registers by their absence from the stages' writes, the four others by their stage. -/
theorem configurationRegistersChangeOnlyByOut : Obligations.ConfigurationRegistersChangeOnlyByOut := by
  have hfree : ∀ n ∈ [irq0enable, irq1enable, irq2enable, irqhandler, leds, display7seg, timerenable, timermax,
      disksector, diskbuffer, reserved0, reserved1, monitoraddr, monitordata, monitorcmd],
      n ∉ hardwareWritten := by decide
  refine ⟨fun s t n hn h hchanged => step_io_changed_only_by_out h (hfree n hn) hchanged,
    fun s t h => ⟨fun hno => ?irqreturn, fun hno => ?irq1status, fun hno => ?diskcmd, fun hno => ?diskstatus⟩⟩
  case irqreturn =>
    obtain ⟨_, w, b, s5, rfl, rfl, start, -, execute, finish⟩ := step_cases h
    rw [finish.io_kept (by decide) (by decide), hno.io_kept execute, start.io_irqreturn]
  case irq1status =>
    rw [step_io_disk h (by decide) hno]
    simp [show irq1status ≠ diskstatus by decide]
  case diskcmd =>
    rw [step_io_disk h (by decide) hno]
    simp [show diskcmd ≠ irq1status by decide, show diskcmd ≠ diskstatus by decide]
  case diskstatus =>
    rw [step_io_disk h (by decide) hno]
    simp [show diskstatus ≠ irq1status by decide]

end Sys2Proof.Machine

/-! PROOFS. The machine invariant: each stage that writes a memory stays inside its space, and stage S7 keeps the
window of a transfer. -/

namespace Sys2Proof.Machine

/-- An accepted command stays inside data memory and inside the disk (R244). -/
theorem diskCommandInRange_bounds {s : State} (h : diskCommandInRange s = true) :
    bufferAddress s + sectorWords ≤ s.cfg.dmemWords ∧ diskOffset s + sectorWords ≤ diskWords := by
  simp only [diskCommandInRange, Bool.and_eq_true, decide_eq_true_eq] at h
  obtain ⟨⟨⟨hsector, hsectors⟩, hbuffer⟩, hend⟩ := h
  simp only [bufferAddress, diskOffset, diskWords, diskSectors, sectorWords] at *
  omega

/-- The block copy of an accepted command keeps data memory canonical (R244). -/
theorem diskTransfer_dmem_wf {s : State} (h : diskCommandInRange s = true)
    (hd : Memory.wf s.cfg.dmemWords s.dmem = true) : Memory.wf s.cfg.dmemWords (diskTransfer s).dmem = true := by
  unfold diskTransfer
  split
  · exact Memory.wf_copy _ _ _ _ _ _ hd (diskCommandInRange_bounds h).1
  · exact hd

/-- The block copy of an accepted command keeps the disk canonical (R244). -/
theorem diskTransfer_disk_wf {s : State} (h : diskCommandInRange s = true)
    (hd : Memory.wf diskWords s.disk = true) : Memory.wf diskWords (diskTransfer s).disk = true := by
  unfold diskTransfer
  split
  · exact hd
  · exact Memory.wf_copy _ _ _ _ _ _ hd (diskCommandInRange_bounds h).2

/-- Stage S7 keeps both of its memories canonical. -/
theorem DiskEffect.memories_wf {s5 t : State} (e : DiskEffect s5 t)
    (hd : Memory.wf s5.cfg.dmemWords s5.dmem = true) (hk : Memory.wf diskWords s5.disk = true) :
    Memory.wf s5.cfg.dmemWords t.dmem = true ∧ Memory.wf diskWords t.disk = true := by
  cases e with
  | completes _ _ _ dmem disk | waits _ _ _ _ dmem disk | idles _ _ _ dmem disk =>
    rw [dmem, disk]; exact ⟨hd, hk⟩
  | accepts _ _ inRange _ _ dmem disk =>
    rw [dmem, disk]; exact ⟨diskTransfer_dmem_wf inRange hd, diskTransfer_disk_wf inRange hk⟩

/-- Stage S7 leaves in flight only a transfer that is due after this cycle and within the latency (R243, R246). -/
theorem DiskEffect.transferWindow {s5 t : State} (e : DiskEffect s5 t)
    (h : s5.diskBusy = true → s5.cycle ≤ s5.diskDone ∧ s5.diskDone < s5.cycle + diskLatency)
    (busy : t.diskBusy = true) : s5.cycle + 1 ≤ t.diskDone ∧ t.diskDone < s5.cycle + 1 + diskLatency := by
  cases e with
  | completes _ _ idle => simp [idle] at busy
  | waits inFlight later _ done =>
    obtain ⟨hlow, hhigh⟩ := h inFlight
    omega
  | idles _ _ still => simp [still] at busy
  | accepts _ _ _ _ done =>
    have : diskLatency = 1024 := rfl
    omega

/-- Stage S5 keeps data memory canonical: the only store is at a checked address (R65). -/
theorem ExecuteEffect.dmem_wf {w : InstrWord} {b s5 : State} (e : ExecuteEffect w b s5)
    (hd : Memory.wf b.cfg.dmemWords b.dmem = true) : Memory.wf b.cfg.dmemWords s5.dmem = true := by
  cases e with
  | unknown _ effect => subst effect; exact hd
  | known i _ _ effect =>
    cases effect with
    | store f a v => exact Memory.wf_write _ _ _ _ hd a.isLt
    | _ => exact hd

/-- Stages S6 to S11 keep the framebuffer canonical: the monitor writes a checked cell (R255). -/
theorem CycleEnd.fb_wf {b s5 t : State} (e : CycleEnd b s5 t) (h : Memory.wf fbCells s5.fb = true) :
    Memory.wf fbCells t.fb = true := by
  rcases e.fb with ⟨_, inRange, hfb⟩ | ⟨_, hfb⟩
  · rw [hfb]; exact Memory.wf_write _ _ _ _ h inRange
  · rw [hfb]; exact h

/-- Settles O58: each part of the invariant is followed through the stages before S5, S5, and the stages after it. -/
theorem everyStepKeepsTheInvariant : Obligations.EveryStepKeepsTheInvariant := by
  intro s t inv h
  obtain ⟨_, w, b, s5, -, -, start, -, execute, finish⟩ := step_cases h
  have kept := execute.keeps
  have hcfg : s5.cfg = s.cfg := kept.cfg.trans start.cfg
  have hdmem : Memory.wf s5.cfg.dmemWords s5.dmem = true := by
    rw [kept.cfg]
    apply execute.dmem_wf
    rw [start.cfg, start.dmem]
    exact inv.dmemCanonical
  have hdisk : Memory.wf diskWords s5.disk = true := by
    rw [kept.disk, start.disk]
    exact inv.diskCanonical
  have hwindow : s5.diskBusy = true → s5.cycle ≤ s5.diskDone ∧ s5.diskDone < s5.cycle + diskLatency := by
    rw [kept.diskBusy, kept.diskDone, kept.cycle, start.diskBusy, start.diskDone, start.cycle]
    exact inv.transferWindow
  obtain ⟨tdmem, tdisk⟩ := finish.disk.memories_wf hdmem hdisk
  exact {
    zeroSlot := by simp only [finish.regs, kept.zeroSlot, start.zeroSlot, inv.zeroSlot]
    imemCanonical := by rw [finish.imem, kept.imem, start.imem]; exact inv.imemCanonical
    dmemCanonical := by rw [finish.cfg]; exact tdmem
    diskCanonical := tdisk
    fbCanonical := finish.fb_wf (by rw [kept.fb, start.fb]; exact inv.fbCanonical)
    pulseClear := by rw [finish.io, if_pos rfl]
    transferWindow := by rw [finish.cycle]; exact finish.disk.transferWindow hwindow }

end Sys2Proof.Machine

/-! PROOFS. Noninterference. The framebuffer and the cycle's events are written by the stages and read by none, so
two states that differ in them alone go through stages S5 to S11 alike; and before the reload of R1 and R2 no stage
but the trace looks at a general register. -/

namespace Sys2Proof.Machine

/-! ### Agreement of two outcomes -/

/-- Outcomes that agree go on alike under continuations that agree. -/
theorem AgreeUpTo.bind {R S : State → State → Prop} {o p : Result} {k l : State → Result} (h : AgreeUpTo R o p)
    (hk : ∀ s t, R s t → AgreeUpTo S (k s) (l t)) : AgreeUpTo S (andThen o k) (andThen p l) := by
  cases o with
  | next s => cases p with
    | next t => exact hk s t h
    | fault | refused => exact False.elim h
  | fault => cases p with
    | fault => exact h
    | next | refused => exact False.elim h
  | refused => cases p with
    | refused => exact h
    | next | fault => exact False.elim h

/-- Agreement up to a relation is agreement up to any weaker one. -/
theorem AgreeUpTo.imp {R S : State → State → Prop} {o p : Result} (h : AgreeUpTo R o p)
    (hRS : ∀ s t, R s t → S s t) : AgreeUpTo S o p := by
  have hnext : ∀ q : Result, andThen q (fun s => (.next s : Result)) = q := fun q => by cases q <;> rfl
  rw [← hnext o, ← hnext p]
  exact h.bind hRS

/-! ### States that differ in their outputs alone -/

/-- The state with other contents in what no stage reads back: the cycle's events and the framebuffer. -/
def withOutputs (s : State) (l : List Event) (m : Memory 8) : State := { s with events := l, fb := m }

/-- A relation of event lists and one of framebuffers, each kept by the one kind of write there is. -/
structure OutputsKept (E : List Event → List Event → Prop) (F : Memory 8 → Memory 8 → Prop) : Prop where
  emit : ∀ {l l'} (e : Event), E l l' → E (l ++ [e]) (l' ++ [e])
  cell : ∀ {m m'} (a : Nat) (v : Byte), F m m' → F (Memory.write m a v) (Memory.write m' a v)

/-- The two states are equal but for their outputs, and those are related. -/
inductive EqualButOutputs (E : List Event → List Event → Prop) (F : Memory 8 → Memory 8 → Prop) (s : State) :
    State → Prop where
  | intro (l : List Event) (m : Memory 8) (events : E s.events l) (fb : F s.fb m) :
      EqualButOutputs E F s (withOutputs s l m)

section
variable {E : List Event → List Event → Prop} {F : Memory 8 → Memory 8 → Prop} {s t : State}

theorem EqualButOutputs.of_withOutputs {l : List Event} {m : Memory 8} (events : E l s.events) (fb : F m s.fb) :
    EqualButOutputs E F (withOutputs s l m) s :=
  .intro (s := withOutputs s l m) s.events s.fb events fb

/-- A state operation that leaves the outputs and does not look at them keeps the relation. -/
theorem EqualButOutputs.map (h : EqualButOutputs E F s t) {g : State → State}
    (hg : ∀ l m, g (withOutputs s l m) = withOutputs (g s) l m) (hev : (g s).events = s.events)
    (hfb : (g s).fb = s.fb) : EqualButOutputs E F (g s) (g t) := by
  obtain ⟨l, m, events, fb⟩ := h
  rw [hg]
  exact ⟨l, m, hev ▸ events, hfb ▸ fb⟩

/-- The same event added to both keeps the relation. -/
theorem EqualButOutputs.emit (h : EqualButOutputs E F s t) (kept : OutputsKept E F) (e : Event) :
    EqualButOutputs E F (emit s e) (emit t e) := by
  obtain ⟨l, m, events, fb⟩ := h
  exact ⟨l ++ [e], m, kept.emit e events, fb⟩

/-! ### Stage S5 -/

/-- The address check classifies alike, and its diagnostic is the same event. -/
theorem checkedAccess_agrees (kept : OutputsKept E F) (h : EqualButOutputs E F s t) {limit : Nat} (f : Fields)
    {access access' : Fin limit → Result}
    (ha : ∀ a, AgreeUpTo (EqualButOutputs E F) (access a) (access' a)) :
    AgreeUpTo (EqualButOutputs E F) (checkedAccess limit f s access) (checkedAccess limit f t access') := by
  have hea : effectiveAddress f t = effectiveAddress f s := by cases h; rfl
  unfold checkedAccess
  rw [hea]
  cases classify limit (effectiveAddress f s) with
  | overflow | outOfRange => rfl
  | negative => exact h.emit kept _
  | inRange a => exact ha a

/-- A branch is taken alike, to the same address. -/
theorem branchOn_agrees (h : EqualButOutputs E F s t) (cond : Int → Int → Bool) (f : Fields) :
    AgreeUpTo (EqualButOutputs E F) (branchOn cond f s) (branchOn cond f t) := by
  obtain ⟨l, m, events, fb⟩ := h
  have hc : compareRegs cond f (withOutputs s l m) = compareRegs cond f s := rfl
  unfold branchOn
  rw [hc]
  split <;> exact .intro l m events fb

/-- Every instruction goes on alike. -/
theorem exec_agrees (kept : OutputsKept E F) (h : EqualButOutputs E F s t) (i : Instr) :
    AgreeUpTo (EqualButOutputs E F) (exec i s) (exec i t) := by
  have hsplit := h
  obtain ⟨l, m, events, fb⟩ := hsplit
  cases i with
  | add f | sub f | mac f | and f | or f | xor f | sll f | sra f | srl f | jal f | reti f | halt f =>
    exact .intro l m events fb
  | beq f | bne f | blt f | bgt f | ble f | bge f => exact branchOn_agrees h _ f
  | lw f | sw f => exact checkedAccess_agrees kept h f fun a => .intro l m events fb
  | input f | output f => exact checkedAccess_agrees kept h f fun n => .intro _ m (kept.emit _ events) fb

/-- Stage S5 goes on alike, for an unknown opcode too (R127, R128). -/
theorem stageExecute_agrees (kept : OutputsKept E F) (h : EqualButOutputs E F s t) (w : InstrWord) :
    AgreeUpTo (EqualButOutputs E F) (stageExecute w s) (stageExecute w t) := by
  unfold stageExecute
  cases decode w with
  | ok i => exact exec_agrees kept h i
  | error e => exact h.emit kept _

/-! ### Stages S6 to S11 -/

/-- A log looks at one I/O register before and after stage S5, and adds the same event. -/
theorem logChange_agrees (kept : OutputsKept E F) {b c : State} (hb : EqualButOutputs E F b c)
    (h : EqualButOutputs E F s t) (n : IoIdx) (entry : Nat → Word → Event) :
    EqualButOutputs E F (logChange b s n entry) (logChange c t n entry) := by
  have hread : readIo c n = readIo b n ∧ readIo t n = readIo s n ∧ t.cycle = s.cycle := by
    cases hb; cases h; exact ⟨rfl, rfl, rfl⟩
  obtain ⟨hbefore, hafter, hcycle⟩ := hread
  unfold logChange
  rw [hbefore, hafter, hcycle]
  split
  · exact h
  · exact h.emit kept _

/-- The monitor writes the same cell and raises the same event (R255). -/
theorem monitorService_agrees (kept : OutputsKept E F) (h : EqualButOutputs E F s t) :
    AgreeUpTo (EqualButOutputs E F) (monitorService s) (monitorService t) := by
  obtain ⟨l, m, events, fb⟩ := h
  have hread : ∀ n, readIo (withOutputs s l m) n = readIo s n := fun _ => rfl
  unfold monitorService
  simp only [hread]
  split
  · split
    · exact .intro _ _ (kept.emit _ events) (kept.cell _ _ fb)
    · rfl
  · exact .intro l m events fb

/-- Stage S6 goes on alike. -/
theorem stageDevices_agrees (kept : OutputsKept E F) {b c : State} (hb : EqualButOutputs E F b c)
    (h : EqualButOutputs E F s t) : AgreeUpTo (EqualButOutputs E F) (stageDevices b s) (stageDevices c t) :=
  monitorService_agrees kept
    (logChange_agrees kept hb (logChange_agrees kept hb h leds .leds) display7seg .display7seg)

/-- The block copy of the disk controller looks at no output. -/
theorem diskTransfer_withOutputs (s : State) (l : List Event) (m : Memory 8) :
    diskTransfer (withOutputs s l m) = withOutputs (diskTransfer s) l m := by
  have hread : readIo (withOutputs s l m) diskcmd = readIo s diskcmd := rfl
  unfold diskTransfer
  rw [hread]
  split <;> rfl

theorem diskAccept_withOutputs (s : State) (l : List Event) (m : Memory 8) :
    diskAccept (withOutputs s l m) = withOutputs (diskAccept s) l m := by
  unfold diskAccept
  rw [diskTransfer_withOutputs]
  rfl

/-- Stage S7 goes on alike. -/
theorem stageDisk_agrees (h : EqualButOutputs E F s t) :
    AgreeUpTo (EqualButOutputs E F) (stageDisk s) (stageDisk t) := by
  have haccept := h.map (diskAccept_withOutputs s) (diskAccept_events s) (diskAccept_fb s)
  have hcomplete := h.map (g := diskComplete) (fun _ _ => rfl) rfl rfl
  have hsees : t.diskBusy = s.diskBusy ∧ t.cycle = s.cycle ∧ t.diskDone = s.diskDone ∧
      readIo t diskcmd = readIo s diskcmd ∧ diskCommandInRange t = diskCommandInRange s := by
    cases h; exact ⟨rfl, rfl, rfl, rfl, rfl⟩
  obtain ⟨hbusy, hcycle, hdone, hcmd, hrange⟩ := hsees
  unfold stageDisk
  rw [hbusy, hcycle, hdone, hcmd, hrange]
  split
  · split
    · exact hcomplete
    · exact h
  · split
    · exact h
    · split
      · exact haccept
      · rfl

theorem stageTimer_withOutputs (s : State) (l : List Event) (m : Memory 8) :
    stageTimer (withOutputs s l m) = withOutputs (stageTimer s) l m := by
  have hread : readIo (withOutputs s l m) timerenable = readIo s timerenable := rfl
  unfold stageTimer
  rw [hread]
  split <;> rfl

theorem stageAdvance_withOutputs (s : State) (l : List Event) (m : Memory 8) :
    stageAdvance (withOutputs s l m) = withOutputs (stageAdvance s) l m := by
  have hset : (withOutputs s l m).pcSet = s.pcSet := rfl
  have hhalted : (withOutputs s l m).halted = s.halted := rfl
  unfold stageAdvance
  rw [hset, hhalted]
  split <;> rfl

theorem stagesAfterDisk_withOutputs (s : State) (l : List Event) (m : Memory 8) :
    stagesAfterDisk (withOutputs s l m) = withOutputs (stagesAfterDisk s) l m := by
  unfold stagesAfterDisk
  rw [stageTimer_withOutputs, stageAdvance_withOutputs]
  rfl

/-- Stages S6 to S11 go on alike. -/
theorem housekeeping_agrees (kept : OutputsKept E F) {b c : State} (hb : EqualButOutputs E F b c)
    (h : EqualButOutputs E F s t) : AgreeUpTo (EqualButOutputs E F) (housekeeping b s) (housekeeping c t) := by
  unfold housekeeping
  apply (stageDevices_agrees kept hb h).bind
  intro s6 t6 h6
  apply (stageDisk_agrees h6).bind
  intro s7 t7 h7
  exact EqualButOutputs.map h7 (stagesAfterDisk_withOutputs s7) (stagesAfterDisk_events s7) (stagesAfterDisk_fb s7)

/-- Stages S5 to S11 go on alike. -/
theorem executeAndAfter_agrees (kept : OutputsKept E F) (h : EqualButOutputs E F s t) (w : InstrWord) :
    AgreeUpTo (EqualButOutputs E F) (andThen (stageExecute w s) (housekeeping s))
      (andThen (stageExecute w t) (housekeeping t)) :=
  (stageExecute_agrees kept h w).bind fun _ _ h5 => housekeeping_agrees kept h h5

/-- Two steps agree as soon as they fetch the same word and find states that differ in their outputs alone. -/
theorem step_agrees (kept : OutputsKept E F) (hhalted : t.halted = s.halted)
    (hword : fetchWord (beforeFetch t) = fetchWord (beforeFetch s))
    (h : EqualButOutputs E F (beforeExecute s) (beforeExecute t)) :
    AgreeUpTo (EqualButOutputs E F) (step s) (step t) := by
  unfold step
  rw [hhalted, hword]
  split
  · rfl
  · exact executeAndAfter_agrees kept h _

end

/-! ### Stages S0 to S4 -/

/-- The state with other general registers and another framebuffer. -/
def withRegsAndFb (s : State) (r : Vector Word 16) (m : Memory 8) : State := { s with regs := r, fb := m }

theorem pendTimer_withRegsAndFb (s : State) (r : Vector Word 16) (m : Memory 8) :
    pendTimer (withRegsAndFb s r m) = withRegsAndFb (pendTimer s) r m := by
  have hread : timerMatches (withRegsAndFb s r m) = timerMatches s := rfl
  unfold pendTimer
  rw [hread]
  split <;> rfl

theorem pendExternal_withRegsAndFb (s : State) (r : Vector Word 16) (m : Memory 8) :
    pendExternal (withRegsAndFb s r m) = withRegsAndFb (pendExternal s) r m := by
  have hread : lineHigh (withRegsAndFb s r m) ↔ lineHigh s := Iff.rfl
  unfold pendExternal
  by_cases hl : lineHigh s
  · rw [if_pos hl, if_pos (hread.mpr hl)]; rfl
  · rw [if_neg hl, if_neg (fun e => hl (hread.mp e))]

theorem stageVector_withRegsAndFb (s : State) (r : Vector Word 16) (m : Memory 8) :
    stageVector (withRegsAndFb s r m) = withRegsAndFb (stageVector s) r m := by
  have hrequest : irqRequest (withRegsAndFb s r m) = irqRequest s := rfl
  have hlatch : (withRegsAndFb s r m).inService = s.inService := rfl
  unfold stageVector
  rw [hrequest, hlatch]
  split <;> rfl

/-- Stages S0 to S2 look neither at the general registers nor at the framebuffer. -/
theorem beforeFetch_withRegsAndFb (s : State) (r : Vector Word 16) (m : Memory 8) :
    beforeFetch (withRegsAndFb s r m) = withRegsAndFb (beforeFetch s) r m := by
  have hstart : stageStart (withRegsAndFb s r m) = withRegsAndFb (stageStart s) r m := rfl
  unfold beforeFetch stagePend
  rw [hstart, pendTimer_withRegsAndFb, pendExternal_withRegsAndFb, stageVector_withRegsAndFb]

/-- The fetch looks at them neither (R124). -/
theorem fetchWord_withRegsAndFb (s : State) (r : Vector Word 16) (m : Memory 8) :
    fetchWord (beforeFetch (withRegsAndFb s r m)) = fetchWord (beforeFetch s) := by
  rw [beforeFetch_withRegsAndFb]
  rfl

/-- The events of a cycle up to stage S4, with the general registers `r` at its start (R262). -/
def tracedWith (s : State) (r : Vector Word 16) : List Event :=
  [.trace (beforeFetch s).pc (fetchWord (beforeFetch s)) (r.set 0 0#32)]

theorem beforeExecute_events_eq (s : State) : (beforeExecute s).events = tracedWith s s.regs := by
  rw [beforeExecute_events, traceRegs, beforeFetch_regs]
  rfl

/-- The reload as one update of the register file (R126). -/
theorem stageReload_eq (w : InstrWord) (s : State) : stageReload w s =
    { s with regs := (s.regs.set 1 (sext12 (imm1Of w))).set 2 (sext12 (imm2Of w)) } := rfl

/-- Stages S3 and S4 on general registers that the reload makes equal (R126) leave no more than their trace record. -/
theorem stageReload_stageTrace_withRegsAndFb (w : InstrWord) (s : State) (r : Vector Word 16) (m : Memory 8)
    (hr : ∀ v v' : Word, (r.set 1 v).set 2 v' = (s.regs.set 1 v).set 2 v') (hevents : s.events = []) :
    stageReload w (stageTrace w (withRegsAndFb s r m)) =
      withOutputs (stageReload w (stageTrace w s)) [.trace s.pc w (r.set 0 0#32)] m := by
  have hset := hr (sext12 (imm1Of w)) (sext12 (imm2Of w))
  rw [stageReload_eq, stageReload_eq]
  simp only [stageTrace, emit, withRegsAndFb, withOutputs, traceRegs, hset, hevents, List.nil_append]

/-- So do stages S0 to S4. -/
theorem beforeExecute_withRegsAndFb (s : State) (r : Vector Word 16) (m : Memory 8)
    (hr : ∀ v v' : Word, (r.set 1 v).set 2 v' = (s.regs.set 1 v).set 2 v') :
    beforeExecute (withRegsAndFb s r m) = withOutputs (beforeExecute s) (tracedWith s r) m := by
  unfold beforeExecute
  rw [fetchWord_withRegsAndFb, beforeFetch_withRegsAndFb]
  exact stageReload_stageTrace_withRegsAndFb _ _ r m (by rwa [beforeFetch_regs]) (beforeFetch_events s)

/-- The step from a state with such general registers and another framebuffer agrees with the state's own. -/
theorem step_withRegsAndFb_agrees {E : List Event → List Event → Prop} {F : Memory 8 → Memory 8 → Prop}
    (kept : OutputsKept E F) (s : State) (r : Vector Word 16) (m : Memory 8)
    (hr : ∀ v v' : Word, (r.set 1 v).set 2 v' = (s.regs.set 1 v).set 2 v')
    (hE : E (tracedWith s r) (tracedWith s s.regs)) (hF : F m s.fb) :
    AgreeUpTo (EqualButOutputs E F) (step (withRegsAndFb s r m)) (step s) := by
  refine step_agrees kept rfl (fetchWord_withRegsAndFb s r m).symm ?_
  rw [beforeExecute_withRegsAndFb s r m hr]
  exact .of_withOutputs (by rw [beforeExecute_events_eq]; exact hE) (by rw [beforeExecute_fb]; exact hF)

/-! ### The framebuffer -/

theorem framebuffer_outputsKept : OutputsKept Eq fun _ _ => True where
  emit _ h := by rw [h]
  cell _ _ _ := trivial

/-- Settles O60: the two steps agree up to outputs, with the same events and any framebuffers. -/
theorem framebufferIsNeverRead : Obligations.FramebufferIsNeverRead := by
  intro s fb
  refine (step_withRegsAndFb_agrees framebuffer_outputsKept s s.regs fb (fun _ _ => rfl) rfl trivial).imp ?_
  rintro u _ ⟨l, m, events, -⟩
  subst events
  rfl

/-! ### R1 and R2 -/

theorem tracedImmediates_outputsKept :
    OutputsKept (fun l l' => l.map Event.withoutImmediates = l'.map Event.withoutImmediates) Eq where
  emit _ h := by rw [List.map_append, List.map_append, h]
  cell _ _ h := by rw [h]

/-- Slots 1 and 2 written last hide what they held before. -/
theorem set_one_two_idem (r : Vector Word 16) (a b v v' : Word) :
    (((r.set 1 a).set 2 b).set 1 v).set 2 v' = (r.set 1 v).set 2 v' := by
  rw [Vector.set_comm (xs := r.set 1 a) b v (by decide), Vector.set_set, Vector.set_set]

/-- Settles O59: the reload hides R1 and R2 from stage S5 on, and before it only the trace record shows them. -/
theorem r1AndR2CarryNothingAcrossCycles : Obligations.R1AndR2CarryNothingAcrossCycles := by
  intro s a b
  have htrace : (tracedWith s ((s.regs.set 1 a).set 2 b)).map Event.withoutImmediates =
      (tracedWith s s.regs).map Event.withoutImmediates := by
    have hzero : ((s.regs.set 1 a).set 2 b).set 0 0#32 = ((s.regs.set 0 0#32).set 1 a).set 2 b := by
      rw [Vector.set_comm (i := 2) (j := 0) _ _ (by decide), Vector.set_comm (i := 1) (j := 0) _ _ (by decide)]
    simp only [tracedWith, List.map_cons, List.map_nil, Event.withoutImmediates, hzero, set_one_two_idem]
  refine (step_withRegsAndFb_agrees tracedImmediates_outputsKept s ((s.regs.set 1 a).set 2 b) s.fb
    (set_one_two_idem s.regs a b) htrace rfl).imp ?_
  rintro u _ ⟨l, m, events, fb⟩
  subst fb
  exact congrArg (fun l => { u with events := l }) events

end Sys2Proof.Machine

/-! PROOFS. Memory. The address check of `lw`, `sw`, `in` and `out` outside its range, what an I/O register holds after
the cycle of an `out` to it, and the writers of the four memories. -/

namespace Sys2Proof.Machine

/-! ### The address check -/

/-- A sum below -2^31 is a fault (R65). -/
theorem checkedAccess_overflow {limit : Nat} {f : Fields} {s : State} {access : Fin limit → Result}
    (h : effectiveAddress f s < -2 ^ 31) : checkedAccess limit f s access = .fault .effectiveAddressOverflow := by
  simp only [checkedAccess, classify_overflow h]

/-- A sum from -2^31 to -1 is the diagnostic (R66). -/
theorem checkedAccess_negative {limit : Nat} {f : Fields} {s : State} {access : Fin limit → Result}
    (hlow : -2 ^ 31 ≤ effectiveAddress f s) (hneg : effectiveAddress f s < 0) :
    checkedAccess limit f s access = .next (emit s (.diagNegativeAddress (effectiveAddress f s))) := by
  simp only [checkedAccess, classify_negative hlow hneg]

/-- A sum at or above the limit is a fault (R65, R67). -/
theorem checkedAccess_outOfRange {limit : Nat} {f : Fields} {s : State} {access : Fin limit → Result}
    (h : (limit : Int) ≤ effectiveAddress f s) : checkedAccess limit f s access = .fault .addressOutOfRange := by
  simp only [checkedAccess, classify_outOfRange h]

/-- The instruction is an access behind the address check of R65, below `limit`. -/
def AddressChecked (i : Fields → Instr) (limit : State → Nat) : Prop :=
  ∀ (f : Fields) (s : State), ∃ access : Fin (limit s) → Result, exec (i f) s = checkedAccess (limit s) f s access

theorem lw_addressChecked : AddressChecked .lw fun s => s.cfg.dmemWords := fun _ _ => ⟨_, rfl⟩
theorem sw_addressChecked : AddressChecked .sw fun s => s.cfg.dmemWords := fun _ _ => ⟨_, rfl⟩
theorem input_addressChecked : AddressChecked .input fun _ => 23 := fun _ _ => ⟨_, rfl⟩
theorem output_addressChecked : AddressChecked .output fun _ => 23 := fun _ _ => ⟨_, rfl⟩

theorem AddressChecked.faults {i : Fields → Instr} {limit : State → Nat} (checked : AddressChecked i limit) :
    AddressFaultSpec i limit := by
  intro f s
  obtain ⟨access, hexec⟩ := checked f s
  rw [hexec]
  exact ⟨checkedAccess_overflow, checkedAccess_outOfRange⟩

/-- Settles O23: the four instructions are behind the same check, which classifies both sums as faults. -/
theorem addressesOutsideStop : Obligations.AddressesOutsideStop :=
  ⟨lw_addressChecked.faults, sw_addressChecked.faults, input_addressChecked.faults, output_addressChecked.faults⟩

theorem AddressChecked.exec_negative {i : Fields → Instr} {limit : State → Nat} (checked : AddressChecked i limit)
    {f : Fields} {s : State} (hlow : -2 ^ 31 ≤ effectiveAddress f s) (hneg : effectiveAddress f s < 0) :
    exec (i f) s = .next (emit s (.diagNegativeAddress (effectiveAddress f s))) := by
  obtain ⟨access, hexec⟩ := checked f s
  rw [hexec, checkedAccess_negative hlow hneg]

/-- The frame of an output event. -/
theorem onlyEvent_emit (s : State) (e : Event) : OnlyEvent s (emit s e) e :=
  ⟨readReg_emit s e, ⟨rfl, rfl⟩, readIo_emit s e, ⟨rfl, rfl, rfl, rfl, rfl, rfl, rfl⟩,
    ⟨readData_emit s e, fun _ => rfl, fun _ => rfl, fun _ => rfl⟩, emit_events s e⟩

theorem AddressChecked.negativeAddressSpec {i : Fields → Instr} {limit : State → Nat}
    (checked : AddressChecked i limit) : NegativeAddressSpec i :=
  fun _ s hlow hneg => ⟨_, checked.exec_negative hlow hneg, onlyEvent_emit s _⟩

/-- Settles O24: the check emits the diagnostic in place of the access. -/
theorem negativeAddressHasNoEffect : Obligations.NegativeAddressHasNoEffect :=
  ⟨lw_addressChecked.negativeAddressSpec, sw_addressChecked.negativeAddressSpec,
    input_addressChecked.negativeAddressSpec, output_addressChecked.negativeAddressSpec⟩

/-! ### The cycle of a known instruction -/

/-- `step_cases` for a cycle whose instruction is known: stage S5 is that instruction's `exec`. -/
theorem step_cases_of_fetched {s t : State} {i : Instr} (hfetched : fetched s = .ok i) (h : step s = .next t) :
    s.halted = false ∧ CycleStart s (beforeExecute s) (fetchWord (beforeFetch s)) ∧
      ∃ s5, exec i (beforeExecute s) = .next s5 ∧ ExecuteKeeps (beforeExecute s) s5 ∧
        CycleEnd (beforeExecute s) s5 t := by
  obtain ⟨hrunning, w, b, s5, rfl, rfl, start, hexecute, execute, finish⟩ := step_cases h
  unfold fetched at hfetched
  simp only [stageExecute, hfetched] at hexecute
  exact ⟨hrunning, start, s5, hexecute, execute.keeps, finish⟩

/-- Stages S6 to S11 log output devices and emit no hardware access. -/
theorem LogEffect.no_hwAccess {b s5 t : State} {added : List Event} (log : LogEffect b s5 t added) (c : Nat)
    (n : IoIdx) (d : Direction) (v : Word) : Event.hwAccess c n d v ∉ added := by
  intro hmem
  rcases log.others _ hmem with ⟨_, _, he⟩ | ⟨_, _, he⟩ | ⟨_, _, he⟩ <;> cases he

/-- A cycle whose stage S5 only emits an event: the pc advances, and the registers are those before S5. -/
theorem CycleEnd.frame_of_emit {b t : State} {e : Event} (finish : CycleEnd b (emit b e) t) (hset : b.pcSet = false)
    (hrunning : b.halted = false) :
    (∀ r, readReg t r = readReg b r) ∧ t.pc = b.pc + 1#12 ∧ t.halted = false ∧ e ∈ t.events := by
  obtain ⟨added, log⟩ := finish.log
  refine ⟨readReg_congr finish.regs, ?_, finish.halted.trans hrunning, ?_⟩
  · rw [finish.pc, emit_pcSet, emit_halted, emit_pc, hset, hrunning]
    simp
  · rw [log.events, emit_events]
    simp

/-- Settles O25: stage S5 only emits the diagnostic, and no later stage emits a hardware access. -/
theorem negativeAddressStepSkips : Obligations.NegativeAddressStepSkips := by
  intro s t f hfetched hlow hneg h
  obtain ⟨i, limit, checked, hi⟩ : ∃ i limit, AddressChecked i limit ∧ fetched s = .ok (i f) := by
    rcases hfetched with hf | hf | hf | hf
    · exact ⟨_, _, lw_addressChecked, hf⟩
    · exact ⟨_, _, sw_addressChecked, hf⟩
    · exact ⟨_, _, input_addressChecked, hf⟩
    · exact ⟨_, _, output_addressChecked, hf⟩
  obtain ⟨hrunning, start, s5, hexec, -, finish⟩ := step_cases_of_fetched hi h
  rw [checked.exec_negative hlow hneg, next_inj] at hexec
  subst hexec
  obtain ⟨hregs, hpc, hhalted, hdiag⟩ := finish.frame_of_emit start.pcSet (start.halted.trans hrunning)
  refine ⟨fun r h1 h2 => ?regs, ?pc, hhalted, hdiag, fun c n d v hmem => ?noAccess⟩
  case regs => rw [hregs, start.regs, if_neg h2, if_neg h1]
  case pc => rw [hpc, beforeExecute_pc, BitVec.toNat_add]; rfl
  case noAccess =>
    obtain ⟨added, log⟩ := finish.log
    rw [log.events, emit_events, start.events] at hmem
    simp only [List.mem_append, List.mem_singleton, reduceCtorEq, false_or] at hmem
    exact log.no_hwAccess c n d v hmem

/-! ### An I/O register after the cycle of an `out` to it -/

/-- `out` to an I/O register stores `x[rm]` there (R199). -/
theorem exec_output_inRange {f : Fields} {s : State} {n : IoIdx} (h : effectiveAddress f s = (n.val : Int)) :
    exec (.output f) s =
      .next (emit (writeIo s n (readReg s f.rm)) (.hwAccess s.cycle n .write (readReg s f.rm))) := by
  simp only [exec, execOut, checkedAccess_inRange n h]

/-- A 32-bit counter counts by the addition of words (R131, R231). -/
theorem countUp_eq_add_one (v : Word) : countUp v = v + 1#32 := by
  apply BitVec.eq_of_toNat_eq
  rw [countUp, wrap32, BitVec.toNat_ofInt, BitVec.toNat_add, BitVec.toNat_ofNat]
  omega

/-- Stage S8 leaves the count in a cycle with the timer disabled and counts it with the timer enabled (R231). -/
theorem CycleEnd.io_timercurrent {b s5 t : State} (finish : CycleEnd b s5 t) : readIo t timercurrent =
    if readIo t timerenable = 0#32 then readIo s5 timercurrent else readIo s5 timercurrent + 1#32 := by
  rw [finish.io_kept (n := timerenable) (by decide) (by decide), finish.io, if_neg (by decide), if_neg (by decide),
    afterDisk_other (by decide), countUp_eq_add_one]
  by_cases henabled : readIo s5 timerenable = 0#32 <;> simp [henabled]

/-- In a cycle in which no transfer completes, stage S7 writes none of its registers but `diskstatus`. -/
theorem CycleEnd.io_of_not_completes {b s5 t : State} (finish : CycleEnd b s5 t) {n : IoIdx}
    (h : n ∉ [irq2status, clks, timercurrent]) (hstatus : n ≠ diskstatus)
    (hno : ¬ (s5.diskBusy = true ∧ s5.cycle = s5.diskDone)) : readIo t n = readIo s5 n := by
  rw [finish.io_afterDisk h]
  by_cases hn : n ∈ [irq1status, diskstatus, diskcmd]
  · rw [finish.disk.afterDisk_eq hn, if_neg (mt (transferCompletes_iff s5).mp hno), if_neg fun e => hstatus e.2]
  · exact afterDisk_other hn

/-- Stage S7 writes `diskstatus` only in a cycle that accepts or completes, which changes `diskBusy` (R243, R246). -/
theorem CycleEnd.io_diskstatus_of_same_busy {b s5 t : State} (finish : CycleEnd b s5 t)
    (hsame : t.diskBusy = s5.diskBusy) : readIo t diskstatus = readIo s5 diskstatus := by
  rw [finish.io_afterDisk (by decide), afterDisk]
  cases finish.disk with
  | completes busy _ idle => simp [hsame, busy] at idle
  | waits busy later => simp [busy, later]
  | idles idle none => simp [idle, none]
  | accepts idle _ _ busy => simp [hsame, idle] at busy

/-- Settles O28: stage S5 stores `x[rm]`, and of the later stages each register has its own writer. -/
theorem outValueAfterTheCycle : Obligations.OutValueAfterTheCycle := by
  intro s t f n hfetched haddress h
  obtain ⟨-, start, s5, hexec, kept, finish⟩ := step_cases_of_fetched hfetched h
  have hv : readIo s5 n = readReg (beforeExecute s) f.rm := by
    rw [exec_output_inRange haddress, next_inj] at hexec
    rw [← hexec, readIo_emit, readIo_writeIo_same]
  have hbusy : s5.diskBusy = s.diskBusy := kept.diskBusy.trans start.diskBusy
  have hcycle : s5.cycle = s.cycle := kept.cycle.trans start.cycle
  have hdone : s5.diskDone = s.diskDone := kept.diskDone.trans start.diskDone
  intro v
  rw [show v = readIo s5 n from hv.symm]
  refine ⟨fun hn => ?others, ?clks, ?irq2status, ?timercurrent, fun hn hno => ?notCompleted, ?diskstatus⟩
  case others =>
    simp only [List.mem_cons, List.not_mem_nil, or_false, not_or] at hn
    obtain ⟨hclks, hpulse, htimer, hcmd, hirq, hstatus⟩ := hn
    exact finish.io_kept (by simp [hclks, hpulse, htimer]) (by simp [hcmd, hirq, hstatus])
  case clks =>
    rintro rfl
    rw [finish.io, if_neg (by decide), if_pos rfl, countUp_eq_add_one]
  case irq2status =>
    rintro rfl
    rw [finish.io, if_pos rfl]
  case timercurrent =>
    rintro rfl
    exact finish.io_timercurrent
  case notCompleted =>
    rw [← hbusy, ← hcycle, ← hdone] at hno
    rcases hn with rfl | rfl <;> exact finish.io_of_not_completes (by decide) (by decide) hno
  case diskstatus =>
    rintro rfl hsame
    exact finish.io_diskstatus_of_same_busy (hsame.trans hbusy.symm)

/-! ### The writers of the four memories -/

/-- No stage writes instruction memory (R77). -/
theorem step_imem {s t : State} (h : step s = .next t) : t.imem = s.imem := by
  obtain ⟨_, w, b, s5, -, -, start, -, execute, finish⟩ := step_cases h
  rw [finish.imem, execute.keeps.imem, start.imem]

/-- Settles O38: one induction over the run. -/
theorem instructionMemoryIsConstant : Obligations.InstructionMemoryIsConstant :=
  fun _ s _ h => runCycles_keeps (P := fun u => u.imem = s.imem) (fun _ _ hu hstep => (step_imem hstep).trans hu) rfl h

/-- Settles O40: `Memory.read_write` in data memory; no other field is written. -/
theorem readAfterWriteInDataMemory : Obligations.ReadAfterWriteInDataMemory :=
  fun s a b v => ⟨Memory.read_write s.dmem a b v, rfl⟩

/-- What every data word reads after the transfer of stage S7 (R244): command 1 fills the buffer. -/
theorem readData_diskTransfer (s : State) (a : Nat) : readData (diskTransfer s) a =
    if readIo s diskcmd = 1#32 ∧ bufferAddress s ≤ a ∧ a < bufferAddress s + sectorWords then
      Memory.read s.disk (diskOffset s + (a - bufferAddress s))
    else readData s a := by
  unfold diskTransfer
  by_cases hcmd : readIo s diskcmd = 1#32
  · simp only [hcmd, if_true, true_and]
    exact Memory.read_copy ..
  · simp only [hcmd, if_false, false_and]
    rfl

/-- What every disk word reads after the transfer of stage S7 (R244): a command other than 1 fills the sector. -/
theorem readDisk_diskTransfer (s : State) (k : Nat) : Memory.read (diskTransfer s).disk k =
    if readIo s diskcmd ≠ 1#32 ∧ diskOffset s ≤ k ∧ k < diskOffset s + sectorWords then
      readData s (bufferAddress s + (k - diskOffset s))
    else Memory.read s.disk k := by
  unfold diskTransfer
  by_cases hcmd : readIo s diskcmd = 1#32
  · simp only [hcmd, if_true, ne_eq, not_true_eq_false, false_and, if_false]
  · simp only [hcmd, if_false, ne_eq, not_false_eq_true, true_and]
    exact Memory.read_copy ..

/-- The buffer and the sector of an acceptable command, as signed words (R244). -/
theorem diskCommandInRange_toInt {s : State} (h : diskCommandInRange s = true) :
    (readIo s diskbuffer).toInt = bufferAddress s ∧
      (readIo s disksector).toInt * sectorWords = diskOffset s := by
  simp only [diskCommandInRange, Bool.and_eq_true, decide_eq_true_eq] at h
  obtain ⟨⟨⟨hsector, -⟩, hbuffer⟩, -⟩ := h
  simp only [bufferAddress, diskOffset, sectorWords]
  omega

/-- Stage S7 changes a data word only by accepting command 1, in its buffer (R70, R244). -/
theorem DiskEffect.data_changed {s5 t : State} (e : DiskEffect s5 t) {a : Nat} (h : readData t a ≠ readData s5 a) :
    s5.diskBusy = false ∧ t.diskBusy = true ∧ readIo s5 diskcmd = 1#32 ∧
      (readIo s5 diskbuffer).toInt ≤ a ∧ (a : Int) < (readIo s5 diskbuffer).toInt + sectorWords := by
  cases e with
  | completes _ _ _ dmem | waits _ _ _ _ dmem | idles _ _ _ dmem =>
    exact absurd (congrArg (Memory.read · a) dmem) h
  | accepts idle _ inRange busy _ dmem =>
    have hread : readData t a = readData (diskTransfer s5) a := congrArg (Memory.read · a) dmem
    rw [hread, readData_diskTransfer] at h
    obtain ⟨hcmd, hlow, hhigh⟩ := of_not_not fun hout => h (if_neg hout)
    obtain ⟨hbuffer, -⟩ := diskCommandInRange_toInt inRange
    rw [hbuffer]
    exact ⟨idle, busy, hcmd, by omega, by omega⟩

/-- Stage S7 changes a disk word only by accepting a command other than 0 and 1, in its sector (R70, R244). -/
theorem DiskEffect.disk_changed {s5 t : State} (e : DiskEffect s5 t) {k : Nat}
    (h : Memory.read t.disk k ≠ Memory.read s5.disk k) :
    s5.diskBusy = false ∧ t.diskBusy = true ∧ readIo s5 diskcmd ≠ 0#32 ∧ readIo s5 diskcmd ≠ 1#32 ∧
      (readIo s5 disksector).toInt * sectorWords ≤ k ∧
      (k : Int) < (readIo s5 disksector).toInt * sectorWords + sectorWords := by
  cases e with
  | completes _ _ _ _ disk | waits _ _ _ _ _ disk | idles _ _ _ _ disk =>
    exact absurd (congrArg (Memory.read · k) disk) h
  | accepts idle command inRange busy _ _ disk =>
    rw [disk, readDisk_diskTransfer] at h
    obtain ⟨hcmd, hlow, hhigh⟩ := of_not_not fun hout => h (if_neg hout)
    obtain ⟨-, hsector⟩ := diskCommandInRange_toInt inRange
    rw [hsector]
    exact ⟨idle, busy, command, hcmd, by omega, by omega⟩

/-- With no transfer in flight after stage S5, the registers that name a command are at the end as they were then. -/
theorem CycleEnd.io_of_idle {b s5 t : State} (finish : CycleEnd b s5 t) (idle : s5.diskBusy = false) :
    readIo t diskcmd = readIo s5 diskcmd ∧ readIo t disksector = readIo s5 disksector ∧
      readIo t diskbuffer = readIo s5 diskbuffer := by
  have hno : ¬ (s5.diskBusy = true ∧ s5.cycle = s5.diskDone) := by simp [idle]
  exact ⟨finish.io_of_not_completes (by decide) (by decide) hno, finish.io_kept (by decide) (by decide),
    finish.io_kept (by decide) (by decide)⟩

/-- A cell changes in stages S6 to S11 only by the monitor, which writes there the low 8 bits (R255). -/
theorem CycleEnd.fb_changed {b s5 t : State} (finish : CycleEnd b s5 t) {c : Nat}
    (h : Memory.read t.fb c ≠ Memory.read s5.fb c) :
    readIo t monitorcmd = 1#32 ∧ (readIo t monitoraddr).toNat = c ∧
      Memory.read t.fb c = (readIo t monitordata).extractLsb' 0 8 := by
  have hkept : ∀ n ∈ [monitorcmd, monitoraddr, monitordata], readIo t n = readIo s5 n := by
    intro n hn
    have hfree : ∀ m ∈ [monitorcmd, monitoraddr, monitordata],
        m ∉ [irq2status, clks, timercurrent] ∧ m ∉ [irq1status, diskstatus, diskcmd] := by decide
    exact finish.io_kept (hfree n hn).1 (hfree n hn).2
  rw [hkept monitorcmd (by simp), hkept monitoraddr (by simp), hkept monitordata (by simp)]
  rcases finish.fb with ⟨hcmd, -, hfb⟩ | ⟨-, hfb⟩
  · rw [hfb, Memory.read_write] at h ⊢
    have hc : c = (readIo s5 monitoraddr).toNat := of_not_not fun hne => h (if_neg hne)
    exact ⟨hcmd, hc.symm, if_pos hc⟩
  · exact absurd (congrArg (Memory.read · c) hfb) h

/-- Settles O39: a changed word is traced to the stage that changed it, S5, S6 or S7. -/
theorem memoriesChangeOnlyThroughTheirWriters : Obligations.MemoriesChangeOnlyThroughTheirWriters := by
  intro s t h
  obtain ⟨_, w, b, s5, rfl, rfl, start, -, execute, finish⟩ := step_cases h
  have hbusy : s5.diskBusy = s.diskBusy := execute.keeps.diskBusy.trans start.diskBusy
  refine ⟨fun a hchanged => ?data, fun k hchanged => ?disk, fun c hchanged => ?framebuffer⟩
  case data =>
    by_cases hs5 : readData s5 a = readData (beforeExecute s) a
    · have hstart : readData (beforeExecute s) a = readData s a := congrArg (Memory.read · a) start.dmem
      rw [← hstart, ← hs5] at hchanged
      obtain ⟨idle, busy, hrest⟩ := finish.disk.data_changed hchanged
      obtain ⟨hcmd, -, hbuffer⟩ := finish.io_of_idle idle
      rw [← hcmd, ← hbuffer] at hrest
      exact .inr ⟨hbusy.symm.trans idle, busy, hrest⟩
    · obtain ⟨f, hdecode, haddress, -⟩ := execute.data_changed hs5
      exact .inl ⟨f, hdecode, haddress⟩
  case disk =>
    rw [← start.disk, ← execute.keeps.disk] at hchanged
    obtain ⟨idle, busy, hrest⟩ := finish.disk.disk_changed hchanged
    obtain ⟨hcmd, hsector, -⟩ := finish.io_of_idle idle
    rw [← hcmd, ← hsector] at hrest
    exact ⟨hbusy.symm.trans idle, busy, hrest⟩
  case framebuffer =>
    rw [← start.fb, ← execute.keeps.fb] at hchanged
    exact finish.fb_changed hchanged

end Sys2Proof.Machine

/-! PROOFS. Encoding. The seven fields of a word are read back from its concatenation and give it back, and the opcode
map is indexed by the instructions' own opcodes; together they make `decode` the inverse of `encode`. -/

namespace Sys2Proof

open Sys2Proof.Laws.OpcodeField (toNat_append_eq_add opcodeOf_encodeFields)

/-! ### The word of an opcode and fields -/

/-- Settles O5: each concatenation is a shifted sum, and the width of an immediate reduces it modulo 4096. -/
theorem encodingPlacesTheFields : Obligations.EncodingPlacesTheFields := by
  intro op f
  simp only [encodeFields, toNat_append_eq_add, BitVec.toNat_ofInt, Nat.cast_pow, Nat.cast_ofNat, Int.reducePow]
  ring

section
variable (op : BitVec 8) (f : Fields)

@[simp] theorem imm2Of_encodeFields : imm2Of (encodeFields op f) = BitVec.ofInt 12 f.imm2 :=
  BitVec.extractLsb'_append_eq_right

@[simp] theorem imm1Of_encodeFields : imm1Of (encodeFields op f) = BitVec.ofInt 12 f.imm1 :=
  (BitVec.extractLsb'_append_eq_of_le (by decide)).trans BitVec.extractLsb'_append_eq_right

@[simp] theorem rmOf_encodeFields : rmOf (encodeFields op f) = f.rm := by
  iterate 2 refine (BitVec.extractLsb'_append_eq_of_le (by decide)).trans ?_
  exact BitVec.extractLsb'_append_eq_right

@[simp] theorem rtOf_encodeFields : rtOf (encodeFields op f) = f.rt := by
  iterate 3 refine (BitVec.extractLsb'_append_eq_of_le (by decide)).trans ?_
  exact BitVec.extractLsb'_append_eq_right

@[simp] theorem rsOf_encodeFields : rsOf (encodeFields op f) = f.rs := by
  iterate 4 refine (BitVec.extractLsb'_append_eq_of_le (by decide)).trans ?_
  exact BitVec.extractLsb'_append_eq_right

@[simp] theorem rdOf_encodeFields : rdOf (encodeFields op f) = f.rd := by
  iterate 5 refine (BitVec.extractLsb'_append_eq_of_le (by decide)).trans ?_
  exact BitVec.extractLsb'_append_eq_right

end

/-- The six fields and the opcode cover every bit of the word (R91). -/
theorem encodeFields_fieldsOf (w : InstrWord) : encodeFields (opcodeOf w) (fieldsOf w) = w := by
  simp only [encodeFields, fieldsOf, opcodeOf, rdOf, rsOf, rtOf, rmOf, imm1Of, imm2Of, BitVec.ofInt_toInt]
  iterate 6 rw [BitVec.extractLsb'_append_extractLsb'_eq_extractLsb' (by decide)]
  exact BitVec.extractLsb'_eq_self

/-! ### Immediates in range -/

theorem immInRange_iff (n : Int) : immInRange n = true ↔ -2048 ≤ n ∧ n ≤ 2047 := by
  simp only [immInRange, decide_eq_true_eq]

/-- The signed reading of an immediate field is in range (R94). -/
theorem immInRange_toInt (v : BitVec 12) : immInRange v.toInt = true := by
  have hlow := v.le_toInt
  have hhigh := v.toInt_lt
  rw [immInRange_iff]
  omega

/-- An immediate in range survives its twelve bits (R94, R102). -/
theorem toInt_ofInt_of_immInRange {n : Int} (h : immInRange n = true) : (BitVec.ofInt 12 n).toInt = n := by
  obtain ⟨hlow, hhigh⟩ := (immInRange_iff n).mp h
  exact BitVec.toInt_ofInt_eq_self (by decide) (by omega) (by omega)

theorem Fields.wf_iff (f : Fields) : f.wf = true ↔ immInRange f.imm1 = true ∧ immInRange f.imm2 = true := by
  simp only [Fields.wf, Bool.and_eq_true]

/-- The fields of a word are well formed. -/
theorem fieldsOf_wf (w : InstrWord) : (fieldsOf w).wf = true :=
  (Fields.wf_iff _).mpr ⟨immInRange_toInt _, immInRange_toInt _⟩

/-- Well-formed fields are read back from the word they are placed in (R91, R102). -/
theorem fieldsOf_encodeFields (op : BitVec 8) {f : Fields} (h : f.wf = true) : fieldsOf (encodeFields op f) = f := by
  obtain ⟨himm1, himm2⟩ := (Fields.wf_iff f).mp h
  simp [fieldsOf, toInt_ofInt_of_immInRange himm1, toInt_ofInt_of_immInRange himm2]

/-! ### The opcode map -/

/-- The opcode map finds exactly the instruction that has this opcode and these fields (R96). -/
theorem instrOfOpcode_eq_some_iff {opcode : Nat} {f : Fields} {i : Instr} :
    instrOfOpcode opcode f = some i ↔ i.opcode.toNat = opcode ∧ i.fields = f := by
  constructor
  · intro h
    unfold instrOfOpcode at h
    split at h <;> cases h <;> exact ⟨rfl, rfl⟩
  · rintro ⟨rfl, rfl⟩
    cases i <;> rfl

/-- The opcode map ends at 21 (R98). -/
theorem instrOfOpcode_eq_none_iff {opcode : Nat} {f : Fields} : instrOfOpcode opcode f = none ↔ 22 ≤ opcode := by
  constructor
  · intro h
    by_contra hlow
    interval_cases opcode <;> cases h
  · intro h
    obtain ⟨k, rfl⟩ := Nat.exists_eq_add_of_le' h
    rfl

/-- Decoding gives exactly the instruction that has the word's opcode and the word's fields. -/
theorem decode_eq_ok_iff {w : InstrWord} {i : Instr} :
    decode w = .ok i ↔ i.opcode = opcodeOf w ∧ i.fields = fieldsOf w := by
  rw [← BitVec.toNat_inj, ← instrOfOpcode_eq_some_iff, decode]
  cases instrOfOpcode (opcodeOf w).toNat (fieldsOf w) <;> simp

/-- A word is rejected exactly for an opcode above the map (R98). -/
theorem decode_eq_error_iff {w : InstrWord} :
    decode w = .error (.unknownOpcode (opcodeOf w)) ↔ 22 ≤ (opcodeOf w).toNat := by
  rw [← instrOfOpcode_eq_none_iff (f := fieldsOf w), decode]
  cases instrOfOpcode (opcodeOf w).toNat (fieldsOf w) <;> simp

theorem exists_decode_eq_ok_iff {w : InstrWord} : (∃ i, decode w = .ok i) ↔ (opcodeOf w).toNat ≤ 21 := by
  rw [← Nat.lt_succ_iff, ← not_le, ← instrOfOpcode_eq_none_iff (f := fieldsOf w), decode]
  cases instrOfOpcode (opcodeOf w).toNat (fieldsOf w) <;> simp

/-! ### Decoding and encoding -/

/-- Settles O1: the opcode and the fields of a well-formed instruction are read back from its word. -/
theorem decodeReadsBackEncode : Obligations.DecodeReadsBackEncode := by
  intro i hwf
  exact decode_eq_ok_iff.mpr
    ⟨(opcodeOf_encodeFields i.opcode i.fields).symm, (fieldsOf_encodeFields i.opcode hwf).symm⟩

/-- Settles O2: a decoded instruction has the word's opcode and fields, and these make up the whole word. -/
theorem encodeReadsBackDecode : Obligations.EncodeReadsBackDecode := by
  intro w i h
  obtain ⟨hopcode, hfields⟩ := decode_eq_ok_iff.mp h
  rw [Instr.wf, encode, hopcode, hfields]
  exact ⟨fieldsOf_wf w, encodeFields_fieldsOf w⟩

/-- Settles O3: the opcode map is indexed by the opcode field and ends at 21. -/
theorem everyWordIsAnInstructionOrAnUnknownOpcode : Obligations.EveryWordIsAnInstructionOrAnUnknownOpcode :=
  fun _ => ⟨fun _ => decode_eq_ok_iff.mp, exists_decode_eq_ok_iff, decode_eq_error_iff.mpr⟩

end Sys2Proof

/-! PROOFS. What the reload of R1 and R2 leaves in the registers, and that no stage that can stop answers a refusal. -/

namespace Sys2Proof.Machine

/-! ### The reload -/

/-- What every register reads after the reload (R126). -/
theorem readReg_stageReload (w : InstrWord) (s : State) (r : RegIdx) : readReg (stageReload w s) r =
    if r = 2#4 then sext12 (imm2Of w) else if r = 1#4 then sext12 (imm1Of w) else readReg s r := by
  simp [stageReload, readReg_writeReg]

/-- Sign extension keeps the signed 12-bit value (R10, R94). -/
theorem sext12_toInt (v : BitVec 12) :
    (sext12 v).toInt = if v.toNat < 2048 then (v.toNat : Int) else (v.toNat : Int) - 4096 := by
  rw [sext12, BitVec.toInt_signExtend_of_le (by decide), BitVec.toInt_eq_toNat_cond]
  split <;> split <;> omega

/-- Settles O7: the reload writes the two immediates after the trace and before stage S5, whatever the word. -/
theorem reloadLoadsTheSignedImmediates : Obligations.ReloadLoadsTheSignedImmediates := by
  intro s
  refine ⟨fun w => ⟨?r1, ?r2, fun r h1 h2 => ?others⟩, readReg_beforeExecute s 1#4, readReg_beforeExecute s 2#4⟩
  case r1 => rw [readReg_stageReload, if_neg (by decide), if_pos rfl, sext12_toInt]
  case r2 => rw [readReg_stageReload, if_pos rfl, sext12_toInt]
  case others => rw [readReg_stageReload, if_neg h2, if_neg h1]

/-! ### Refusals -/

/-- A sequence is refused exactly when one of its parts is. -/
theorem andThen_eq_refused {α β : Type} {o : Host.Outcome α Fault Refusal} {k : α → Host.Outcome β Fault Refusal}
    {r : Refusal} : andThen o k = .refused r ↔ o = .refused r ∨ ∃ a, o = .next a ∧ k a = .refused r := by
  cases o <;> simp

/-- The address check refuses nothing of its own (R65). -/
theorem checkedAccess_ne_refused {limit : Nat} {f : Fields} {s : State} {access : Fin limit → Result} {r : Refusal}
    (h : ∀ a, access a ≠ .refused r) : checkedAccess limit f s access ≠ .refused r := by
  unfold checkedAccess
  cases classify limit (effectiveAddress f s) with
  | overflow | negative | outOfRange => exact nofun
  | inRange a => exact h a

/-- Every instruction has a meaning: it goes on, or the address check stops it (R65, R99). -/
theorem exec_ne_refused (i : Instr) (s : State) (r : Refusal) : exec i s ≠ .refused r := by
  cases i with
  | add | sub | mac | and | or | xor | sll | sra | srl | beq | bne | blt | bgt | ble | bge | jal | reti | halt =>
    exact nofun
  | lw | sw | input | output => exact checkedAccess_ne_refused fun _ => nofun

/-- Every word has a meaning, an unknown opcode too (R99, R128). -/
theorem stageExecute_ne_refused (w : InstrWord) (s : State) (r : Refusal) : stageExecute w s ≠ .refused r := by
  unfold stageExecute
  cases decode w with
  | ok i => exact exec_ne_refused i s r
  | error e => exact nofun

/-- Stage S6 goes on or ends in the fault of the monitor's address (R255). -/
theorem stageDevices_ne_refused (before s : State) (r : Refusal) : stageDevices before s ≠ .refused r := by
  unfold stageDevices monitorService
  split
  · split <;> exact nofun
  · exact nofun

/-- Stage S7 goes on or ends in the fault of the disk command's range (R244). -/
theorem stageDisk_ne_refused (s : State) (r : Refusal) : stageDisk s ≠ .refused r := by
  unfold stageDisk
  split
  · exact nofun
  · split
    · exact nofun
    · split <;> exact nofun

/-- Settles O35: of the parts of a cycle that can stop, S5, S6 and S7 and the halted machine, none refuses. -/
theorem stepNeverRefuses : Obligations.StepNeverRefuses := by
  intro s r h
  unfold step at h
  split at h
  case isTrue => cases h
  case isFalse =>
    rcases andThen_eq_refused.mp h with hexecute | ⟨s5, -, hrest⟩
    · exact stageExecute_ne_refused _ _ r hexecute
    rcases andThen_eq_refused.mp hrest with hdevices | ⟨s6, -, hrest⟩
    · exact stageDevices_ne_refused _ _ r hdevices
    rcases andThen_eq_refused.mp hrest with hdisk | ⟨s7, -, hafter⟩
    · exact stageDisk_ne_refused s6 r hdisk
    · cases hafter

end Sys2Proof.Machine

/-! PROOFS. The cycle and its dispatch: what a running and a halted machine step to, the pc and the halt flag after
a cycle, the cycle of an unknown opcode, and the clock and the pulse that every cycle ends with. -/

namespace Sys2Proof.Machine

/-! ### Dispatch -/

/-- No cycle runs from a halted state (R133). -/
theorem step_of_halted {s : State} (h : s.halted = true) : step s = .fault .stopped := by
  rw [step, if_pos h]

/-- A running machine runs stage S5 and then the housekeeping (R121). -/
theorem step_of_running {s : State} (h : s.halted = false) : step s =
    andThen (stageExecute (fetchWord (beforeFetch s)) (beforeExecute s)) (housekeeping (beforeExecute s)) := by
  rw [step, if_neg (Bool.eq_false_iff.mp h)]

/-- Stage S5 of an instruction's word is the instruction's rule (R127). -/
theorem stageExecute_of_decode {w : InstrWord} {i : Instr} (h : decode w = .ok i) (s : State) :
    stageExecute w s = exec i s := by
  simp only [stageExecute, h]

/-- Stage S5 of an opcode above the map is its diagnostic (R128). -/
theorem stageExecute_of_unknown {w : InstrWord} (h : 22 ≤ (opcodeOf w).toNat) (s : State) :
    stageExecute w s = .next (emit s (.diagUnknownOpcode (opcodeOf w))) := by
  simp only [stageExecute, decode_eq_error_iff.mpr h, execUnknown]

/-- Settles O34: the fetched word decodes, so stage S5 of the running machine is `exec`. -/
theorem stepRunsTheDecodedInstruction : Obligations.StepRunsTheDecodedInstruction := by
  intro s i hrunning hfetched
  have hstep : step s = andThen (exec i (beforeExecute s)) (housekeeping (beforeExecute s)) := by
    rw [step_of_running hrunning, stageExecute_of_decode hfetched]
  refine ⟨hstep, fun s5 hexec => ?_⟩
  rw [hstep, hexec, andThen_next]

/-! ### The pc and the halt flag after the cycle -/

/-- The pc counts modulo 4096 (R130). -/
theorem toNat_pc_add_one (a : PcAddr) : (a + 1#12).toNat = (a.toNat + 1) % 4096 := BitVec.toNat_add a 1#12

/-- Settles O20: the pc of `CycleEnd`, for the one state that stage S5 answers. -/
theorem pcAdvancesUnlessSetOrHalted : Obligations.PcAdvancesUnlessSetOrHalted := by
  intro s s5 t hs5 h
  obtain ⟨-, w, b, u, rfl, rfl, -, hu, -, finish⟩ := step_cases h
  obtain rfl : s5 = u := next_inj.mp (hs5.symm.trans hu)
  rw [finish.pc, apply_ite BitVec.toNat, toNat_pc_add_one]

/-- The halt flag after stage S5 of a running machine: set by `halt` alone, which leaves the pc (R204). -/
theorem ExecuteEffect.halted_iff {w : InstrWord} {b s5 : State} (e : ExecuteEffect w b s5) (h : b.halted = false) :
    (s5.halted = true ↔ ∃ f, decode w = .ok (.halt f)) ∧ (s5.halted = true → s5.pc = b.pc) := by
  obtain ⟨-, -, hhalt, hother⟩ := e.flags
  have hiff : s5.halted = true ↔ ∃ f, decode w = .ok (.halt f) := by
    refine ⟨fun hs5 => ?_, fun hf => (hhalt hf).1⟩
    by_contra hno
    rw [hother (not_exists.mp hno), h] at hs5
    cases hs5
  exact ⟨hiff, fun hs5 => (hhalt (hiff.mp hs5)).2⟩

/-- Settles O32: stage S5 alone sets the flag, and stage S9 leaves the pc of a halted machine. -/
theorem onlyHaltStopsTheMachine : Obligations.OnlyHaltStopsTheMachine := by
  refine ⟨fun s t h => ?_, fun s => step_of_halted⟩
  obtain ⟨hrunning, w, b, s5, rfl, rfl, start, -, execute, finish⟩ := step_cases h
  obtain ⟨hiff, hpc⟩ := execute.halted_iff (start.halted.trans hrunning)
  rw [finish.halted]
  refine ⟨hiff, fun hs5 => ?_⟩
  rw [finish.pc, if_pos (.inr hs5), hpc hs5, beforeExecute_pc]

/-! ### Unknown opcodes -/

/-- A cycle whose stage S5 only emits a diagnostic has no hardware access: its other events are the trace and the
logs of stage S6. -/
theorem CycleEnd.no_hwAccess_of_emit {s b t : State} {w : InstrWord} {e : Event} (start : CycleStart s b w)
    (finish : CycleEnd b (emit b e) t) {c : Nat} {n : IoIdx} {d : Direction} {v : Word} (he : .hwAccess c n d v ≠ e) :
    Event.hwAccess c n d v ∉ t.events := by
  obtain ⟨added, log⟩ := finish.log
  rw [log.events, emit_events, start.events]
  simp [he, log.no_hwAccess]

/-- Settles O33: stage S5 emits the diagnostic alone, and the rest is the cycle around it. -/
theorem unknownOpcodeIsANoOperation : Obligations.UnknownOpcodeIsANoOperation := by
  refine ⟨fun w s hopcode => ⟨_, stageExecute_of_unknown hopcode s, onlyEvent_emit s _⟩, fun s t hopcode h => ?_⟩
  obtain ⟨hrunning, w, b, s5, rfl, rfl, start, hexecute, -, finish⟩ := step_cases h
  rw [stageExecute_of_unknown hopcode, next_inj] at hexecute
  subst hexecute
  obtain ⟨hregs, hpc, hhalted, hdiag⟩ := finish.frame_of_emit start.pcSet (start.halted.trans hrunning)
  refine ⟨?r1, ?r2, fun r h1 h2 => ?others, ?pc, hhalted, hdiag,
    fun c n d v => finish.no_hwAccess_of_emit start nofun⟩
  case r1 => rw [hregs, start.regs, if_neg (by decide), if_pos rfl]
  case r2 => rw [hregs, start.regs, if_pos rfl]
  case others => rw [hregs, start.regs, if_neg h2, if_neg h1]
  case pc => rw [hpc, beforeExecute_pc, toNat_pc_add_one]

/-! ### The clock and the pulse -/

/-- Stage S10 counts the cycle (R131). -/
theorem step_cycle {s t : State} (h : step s = .next t) : t.cycle = s.cycle + 1 := by
  obtain ⟨-, w, b, s5, -, -, start, -, execute, finish⟩ := step_cases h
  rw [finish.cycle, execute.keeps.cycle, start.cycle]

/-- Stage S10 is the only writer of `clks` in a cycle without an `out` to it (R34, R131). -/
theorem step_io_clks {s t : State} (h : step s = .next t) (hno : NoOutTo s clks) :
    readIo t clks = readIo s clks + 1#32 := by
  obtain ⟨-, w, b, s5, rfl, rfl, start, -, execute, finish⟩ := step_cases h
  rw [finish.io, if_neg (by decide), if_pos rfl, countUp_eq_add_one, hno.io_kept execute, start.io_kept (by decide)]

/-- Counting before and after the reduction modulo 2^32 agree (R9). -/
theorem wrap32_natCast_succ (n : Nat) : wrap32 ((n + 1 : Nat) : Int) = wrap32 (n : Int) + 1#32 := by
  simp only [wrap32, BitVec.ofInt_natCast, BitVec.ofNat_add]

/-- Settles O36: both counters count by one, so their agreement modulo 2^32 is kept. -/
theorem everyStepCountsOneCycle : Obligations.EveryStepCountsOneCycle := by
  intro s t h
  refine ⟨step_cycle h, fun hno => ⟨step_io_clks h hno, fun hagree => ?_⟩⟩
  rw [step_io_clks h hno, hagree, step_cycle h, wrap32_natCast_succ]

/-- Settles O37: stage S11 is the last of the cycle, and stage S0 of the next leaves the I/O bank. -/
theorem pulseIsClearAfterEveryStep : Obligations.PulseIsClearAfterEveryStep := by
  intro s t h
  obtain ⟨-, w, b, s5, -, -, -, -, -, finish⟩ := step_cases h
  have hclear : readIo t irq2status = 0#32 := by rw [finish.io, if_pos rfl]
  exact ⟨hclear, (readIo_congr (stageStart_io t) irq2status).trans hclear⟩

end Sys2Proof.Machine

/-! PROOFS. The ALU. The frame of an instruction that ends in the write of a register, the reduced sum as the sum of
words, and the two right shifts as shifts of the word by the whole amount. -/

namespace Sys2Proof.Machine

/-! ### Results -/

/-- A register write is the whole effect of an instruction that ends in one (R21, R140). -/
theorem onlyRegister_writeReg (s : State) (rd : RegIdx) (v : Word) : OnlyRegister s (writeReg s rd v) rd v := by
  refine ⟨fun r => ?register, ⟨rfl, rfl⟩, readIo_writeReg s rd v, ⟨rfl, rfl, rfl, rfl, rfl, rfl, rfl⟩,
    ⟨readData_writeReg s rd v, fun _ => rfl, fun _ => rfl, fun _ => rfl⟩, rfl⟩
  case register =>
    rw [readReg_writeReg]
    by_cases hrd : r = rd
    · subst hrd
      by_cases h0 : r = 0#4 <;> simp [h0]
    · simp [hrd]

/-- The frame of the ALU instructions of three sources (R140). -/
theorem aluThree_spec (op : Word → Word → Word → Word) (f : Fields) (s : State) :
    ∃ t, aluThree op f s = .next t ∧
      OnlyRegister s t f.rd (op (readReg s f.rs) (readReg s f.rt) (readReg s f.rm)) :=
  ⟨_, writeResult_eq _ _ _, onlyRegister_writeReg _ _ _⟩

/-! ### Sums -/

/-- Reducing the exact sum of the signed readings is adding the words (R9, R141). -/
theorem wrap32_toInt_add (a b c : Word) : wrap32 (a.toInt + b.toInt + c.toInt) = a + b + c := by
  simp only [wrap32, BitVec.ofInt_add, BitVec.ofInt_toInt]

/-- Reducing the exact sum of the unsigned readings is adding the words (R9, R141). -/
theorem wrap32_toNat_add (a b c : Word) : wrap32 ((a.toNat + b.toNat + c.toNat : Nat) : Int) = a + b + c := by
  simp only [wrap32, BitVec.ofInt_natCast, BitVec.ofNat_add, BitVec.ofNat_toNat, BitVec.setWidth_eq]

/-- Settles O9: the sum is written in one register write, and both readings give the sum of the words. -/
theorem addWritesTheWrappedSum : Obligations.AddWritesTheWrappedSum := by
  intro f s
  exact ⟨aluThree_spec addWords f s, (wrap32_toInt_add _ _ _).trans (wrap32_toNat_add _ _ _).symm⟩

/-! ### Right shifts -/

/-- From 31 on every bit of the result is the sign (R149). -/
theorem sraBy_of_le {n : Nat} (v : Word) (h : 31 ≤ n) :
    sraBy v n = if v.msb then 0xFFFFFFFF#32 else 0#32 := by
  rw [sraBy, if_pos h]

/-- The two cases of R149 are one: the signed reading divided by `2 ^ n`, rounded down. -/
theorem toInt_sraBy (v : Word) (n : Nat) : (sraBy v n).toInt = v.toInt / 2 ^ n := by
  by_cases hn : 31 ≤ n
  · have hlow : -2 ^ 31 ≤ v.toInt := v.le_toInt
    have hhigh : v.toInt < 2 ^ 31 := v.toInt_lt
    have hpow : (2 ^ 31 : Int) ≤ 2 ^ n := pow_le_pow_right₀ (by decide) hn
    rw [sraBy_of_le v hn, BitVec.msb_eq_toInt]
    by_cases hneg : v.toInt < 0
    · rw [Int.ediv_eq_neg_one_of_neg_of_le hneg (by omega)]
      simp [hneg]
    · rw [Int.ediv_eq_zero_of_lt (by omega) (by omega)]
      simp [hneg]
  · have hshift : v.toInt / ((2 ^ n : Nat) : Int) = (v.sshiftRight n).toInt := by
      rw [BitVec.toInt_sshiftRight, Int.shiftRight_eq_div_pow]
    rw [sraBy, if_neg hn, hshift, wrap32, BitVec.ofInt_toInt, ← hshift, Nat.cast_pow, Nat.cast_ofNat]

/-- From 32 on every bit of the word is shifted out (R150). -/
theorem srlBy_of_le {n : Nat} (v : Word) (h : 32 ≤ n) : srlBy v n = 0#32 := by
  rw [srlBy, if_pos h]

/-- The two cases of R150 are one: the unsigned reading divided by `2 ^ n`, rounded down. -/
theorem toNat_srlBy (v : Word) (n : Nat) : (srlBy v n).toNat = v.toNat / 2 ^ n := by
  have hv : v.toNat < 2 ^ 32 := v.isLt
  by_cases hn : 32 ≤ n
  · have hpow : 2 ^ 32 ≤ 2 ^ n := Nat.pow_le_pow_right (by decide) hn
    rw [srlBy_of_le v hn, Nat.div_eq_of_lt (hv.trans_le hpow), BitVec.toNat_zero]
  · rw [srlBy, if_neg hn, BitVec.toNat_ofNat, Nat.mod_eq_of_lt ((Nat.div_le_self _ _).trans_lt hv)]

/-- Settles O16: one more place halves the quotient, which moves a negative one up and an unsigned one down. -/
theorem rightShiftsSettleMonotonically : Obligations.RightShiftsSettleMonotonically := by
  intro v n
  refine ⟨fun hmsb => ⟨?rises, fun hn => ?ones⟩, ?falls, srlBy_of_le v⟩
  case rises =>
    have hneg : v.toInt < 0 := by simpa [BitVec.msb_eq_toInt] using hmsb
    have hquotient : v.toInt / 2 ^ n < 0 := Int.ediv_neg_of_neg_of_pos hneg (by positivity)
    have hhalf : v.toInt / 2 ^ (n + 1) = v.toInt / 2 ^ n / 2 := by
      rw [pow_succ, Int.ediv_ediv_of_nonneg (by positivity)]
    rw [toInt_sraBy, toInt_sraBy, hhalf]
    omega
  case ones => rw [sraBy_of_le v hn, if_pos hmsb]
  case falls =>
    rw [toNat_srlBy, toNat_srlBy]
    exact Nat.div_le_div_left (Nat.pow_le_pow_right (by decide) n.le_succ) (Nat.two_pow_pos n)

end Sys2Proof.Machine

/-! PROOFS. The conditional branches. Their one rule R160 over the signed condition of each, the pc after the whole
cycle of a branch, and the frame of a change of the pc. -/

namespace Sys2Proof.Machine

/-! ### The rule of a branch -/

/-- Stage S5 of a branch (R160): the jump to `x[rm]` when `cond` holds of the signed sources, else nothing at all. -/
def BranchRule (i : Fields → Instr) (cond : Int → Int → Prop) : Prop :=
  ∀ (f : Fields) (s : State),
    (cond (signedReg s f.rs) (signedReg s f.rt) → exec (i f) s = .next (jumpTo s (low12 (readReg s f.rm)))) ∧
    (¬ cond (signedReg s f.rs) (signedReg s f.rt) → exec (i f) s = .next s)

/-- `branchOn` is the rule of the condition that its test decides. -/
theorem branchRule_of_branchOn {i : Fields → Instr} {test : Int → Int → Bool} {cond : Int → Int → Prop}
    (hexec : ∀ f s, exec (i f) s = branchOn test f s) (htest : ∀ a b, test a b = true ↔ cond a b) :
    BranchRule i cond := by
  intro f s
  have hcompare : compareRegs test f s = true ↔ cond (signedReg s f.rs) (signedReg s f.rt) := htest _ _
  rw [hexec, branchOn, ← hcompare]
  exact ⟨fun taken => by rw [if_pos taken], fun untaken => by rw [if_neg untaken]⟩

theorem beq_branchRule : BranchRule .beq (fun a b => a = b) :=
  branchRule_of_branchOn (test := condEq) (fun _ _ => rfl) fun _ _ => decide_eq_true_iff
theorem bne_branchRule : BranchRule .bne (fun a b => a ≠ b) :=
  branchRule_of_branchOn (test := condNe) (fun _ _ => rfl) fun _ _ => decide_eq_true_iff
theorem blt_branchRule : BranchRule .blt (fun a b => a < b) :=
  branchRule_of_branchOn (test := condLt) (fun _ _ => rfl) fun _ _ => decide_eq_true_iff
theorem bgt_branchRule : BranchRule .bgt (fun a b => a > b) :=
  branchRule_of_branchOn (test := condGt) (fun _ _ => rfl) fun _ _ => decide_eq_true_iff
theorem ble_branchRule : BranchRule .ble (fun a b => a ≤ b) :=
  branchRule_of_branchOn (test := condLe) (fun _ _ => rfl) fun _ _ => decide_eq_true_iff
theorem bge_branchRule : BranchRule .bge (fun a b => a ≥ b) :=
  branchRule_of_branchOn (test := condGe) (fun _ _ => rfl) fun _ _ => decide_eq_true_iff

/-! ### The pc after the cycle of a branch -/

/-- The jump sets `pc_set`, so stage S9 leaves the target; without it stage S9 counts the branch's address on. -/
theorem BranchRule.branchStepSpec {i : Fields → Instr} {cond : Int → Int → Prop} (rule : BranchRule i cond) :
    BranchStepSpec i cond := by
  intro f s t hfetched h
  obtain ⟨hrunning, -, s5, hexec, -, finish⟩ := step_cases_of_fetched hfetched h
  obtain ⟨htaken, huntaken⟩ := rule f (beforeExecute s)
  refine ⟨fun hcond => ?taken, fun hcond => ?untaken⟩
  case taken =>
    obtain rfl := next_inj.mp ((htaken hcond).symm.trans hexec)
    rw [finish.pc, if_pos (.inl (jumpTo_pcSet _ _)), jumpTo_pc]
  case untaken =>
    obtain rfl := next_inj.mp ((huntaken hcond).symm.trans hexec)
    have hadvances : ¬ ((beforeExecute s).pcSet = true ∨ (beforeExecute s).halted = true) := by
      simp [hrunning]
    rw [finish.pc, if_neg hadvances, toNat_pc_add_one, beforeExecute_pc]

/-- Settles O18: for each branch, from its rule. -/
theorem branchStepAdvancesOrJumps : Obligations.BranchStepAdvancesOrJumps :=
  ⟨beq_branchRule.branchStepSpec, bne_branchRule.branchStepSpec, blt_branchRule.branchStepSpec,
    bgt_branchRule.branchStepSpec, ble_branchRule.branchStepSpec, bge_branchRule.branchStepSpec⟩

/-! ### The frame of a branch -/

/-- Everything but the pc and the PC-set flag is as before. -/
def OnlyPc (s t : State) : Prop :=
  SameRegs s t ∧ SameIo s t ∧ SameControl s t ∧ SameMemories s t ∧ t.events = s.events

theorem onlyPc_refl (s : State) : OnlyPc s s :=
  ⟨fun _ => rfl, fun _ => rfl, ⟨rfl, rfl, rfl, rfl, rfl, rfl, rfl⟩,
    ⟨fun _ => rfl, fun _ => rfl, fun _ => rfl, fun _ => rfl⟩, rfl⟩

theorem onlyPc_jumpTo (s : State) (target : PcAddr) : OnlyPc s (jumpTo s target) :=
  ⟨readReg_jumpTo s target, readIo_jumpTo s target, ⟨rfl, rfl, rfl, rfl, rfl, rfl, rfl⟩,
    ⟨readData_jumpTo s target, fun _ => rfl, fun _ => rfl, fun _ => rfl⟩, jumpTo_events s target⟩

/-- A branch taken only jumps, and one not taken leaves the state. -/
theorem BranchRule.branchSpec {i : Fields → Instr} {cond : Int → Int → Prop} (rule : BranchRule i cond) :
    BranchSpec i cond := by
  intro f s
  obtain ⟨htaken, huntaken⟩ := rule f s
  by_cases hcond : cond (signedReg s f.rs) (signedReg s f.rt)
  · exact ⟨_, htaken hcond, fun _ => ⟨jumpTo_pc _ _, jumpTo_pcSet _ _⟩, fun hno => absurd hcond hno,
      onlyPc_jumpTo s _⟩
  · exact ⟨s, huntaken hcond, fun hyes => absurd hyes hcond, fun _ => ⟨rfl, rfl⟩, onlyPc_refl s⟩

/-- Settles O17: for each branch, from its rule. -/
theorem branchesCompareSignedAndSetThePc : Obligations.BranchesCompareSignedAndSetThePc :=
  ⟨beq_branchRule.branchSpec, bne_branchRule.branchSpec, blt_branchRule.branchSpec,
    bgt_branchRule.branchSpec, ble_branchRule.branchSpec, bge_branchRule.branchSpec⟩

end Sys2Proof.Machine

/-! PROOFS. Load and store. What `lw` and `sw` do at an address of data memory, with the reduced sum as the sum of
words, and the frame of the write of one word. -/

namespace Sys2Proof.Machine

/-- Reducing the exact sum of two signed readings is adding the words (R9, D33). -/
theorem wrap32_toInt_add_toInt (a b : Word) : wrap32 (a.toInt + b.toInt) = a + b := by
  simp only [wrap32, BitVec.ofInt_add, BitVec.ofInt_toInt]

/-- Everything but the word at `a` of data memory is as before, and that word is `v`. -/
def OnlyDataWord (s t : State) (a : Nat) (v : Word) : Prop :=
  readData t a = v ∧ (∀ b, b ≠ a → readData t b = readData s b) ∧ SameOtherMemories s t ∧
    SameRegs s t ∧ SamePc s t ∧ SameIo s t ∧ SameControl s t ∧ t.events = s.events

theorem onlyDataWord_writeData (s : State) (a : Nat) (v : Word) : OnlyDataWord s (writeData s a v) a v :=
  ⟨Memory.read_write_same s.dmem a v, fun b => Memory.read_write_other s.dmem a b v,
    ⟨fun _ => rfl, fun _ => rfl, fun _ => rfl⟩, readReg_writeData s a v, ⟨rfl, rfl⟩, readIo_writeData s a v,
    ⟨rfl, rfl, rfl, rfl, rfl, rfl, rfl⟩, writeData_events s a v⟩

section
variable {f : Fields} {s : State} {a : Nat}

/-- `lw` at an address of data memory adds `x[rm]` to the word there (R183). -/
theorem exec_lw_inRange (haddress : effectiveAddress f s = (a : Int)) (ha : a < s.cfg.dmemWords) :
    exec (.lw f) s = .next (writeReg s f.rd (readData s a + readReg s f.rm)) := by
  simp only [exec, execLw, checkedAccess_inRange ⟨a, ha⟩ haddress, writeResult_eq, wrap32_toInt_add_toInt]

/-- `sw` at an address of data memory stores the sum of its two sources there (R185). -/
theorem exec_sw_inRange (haddress : effectiveAddress f s = (a : Int)) (ha : a < s.cfg.dmemWords) :
    exec (.sw f) s = .next (writeData s a (readReg s f.rm + readReg s f.rd)) := by
  simp only [exec, execSw, checkedAccess_inRange ⟨a, ha⟩ haddress, wrap32_toInt_add_toInt]

end

/-- Settles O21: the load is one register write. -/
theorem lwLoadsAndAdds : Obligations.LwLoadsAndAdds :=
  fun _ s _ haddress ha => ⟨_, exec_lw_inRange haddress ha, onlyRegister_writeReg s _ _⟩

/-- Settles O22: the store is one write to data memory. -/
theorem swStoresTheSum : Obligations.SwStoresTheSum :=
  fun _ s _ haddress ha => ⟨_, exec_sw_inRange haddress ha, onlyDataWord_writeData s _ _⟩

end Sys2Proof.Machine

/-! PROOFS. System instructions and interrupts. The rules of `reti`, `in` and `halt` with their frames, the entry that
stage S2 makes when an interrupt is taken, and a level request that stage S1 carries from one cycle into the next. -/

namespace Sys2Proof.Machine

/-! ### Instruction addresses in words -/

/-- The low 12 bits of a word as a number (R10, D31). -/
theorem toNat_low12 (v : Word) : (low12 v).toNat = v.toNat % 4096 := by
  rw [low12, BitVec.extractLsb'_toNat, Nat.shiftRight_zero]

/-- What the entry saves is what `reti` goes back to (D31). -/
@[simp] theorem low12_zext12 (a : PcAddr) : low12 (zext12 a) = a := by
  apply BitVec.eq_of_toNat_eq
  rw [toNat_low12, zext12, BitVec.toNat_setWidth]
  omega

/-! ### The entry in stage S2 -/

/-- A cycle that takes an interrupt fetches with the pc saved, the handler's address in its place and the latch set
(R222). -/
theorem beforeFetch_of_interruptTaken {s : State} (h : interruptTaken s = true) :
    readIo (beforeFetch s) irqreturn = zext12 s.pc ∧ (beforeFetch s).pc = low12 (readIo s irqhandler) ∧
      (beforeFetch s).inService = true := by
  have start := beforeExecute_start s
  refine ⟨?saved, ?vectored, ?latched⟩
  case saved => rw [← readIo_congr (beforeExecute_io s), start.io_irqreturn, if_pos h]
  case vectored => rw [← beforeExecute_pc, start.pc, if_pos ((interruptTaken_iff s).mp h)]
  case latched => rw [← beforeExecute_inService, start.inService_eq, h, Bool.or_true]

/-! ### Return from an interrupt -/

/-- `reti` returns in every state (R191). -/
theorem exec_reti (f : Fields) (s : State) : exec (.reti f) s = .next (returnFromInterrupt s) := rfl

/-- Settles O43: the entry saves the pc in `irqreturn`, and its low 12 bits are the pc again. -/
theorem returnResumesTheInterruptedProgram : Obligations.ReturnResumesTheInterruptedProgram := by
  intro s u f htaken hkept
  obtain ⟨hsaved, -, -⟩ := beforeFetch_of_interruptTaken htaken
  refine ⟨_, exec_reti f u, ?_, returnFromInterrupt_inService u⟩
  rw [returnFromInterrupt_pc, hkept, hsaved, low12_zext12]

/-- Settles O30: the return writes the pc, `pc_set` and the latch. -/
theorem retiRestoresThePcAndReleasesTheLatch : Obligations.RetiRestoresThePcAndReleasesTheLatch :=
  fun f s => ⟨_, exec_reti f s, toNat_low12 _, returnFromInterrupt_inService s, returnFromInterrupt_pcSet s,
    readReg_returnFromInterrupt s, readIo_returnFromInterrupt s, returnFromInterrupt_halted s,
    ⟨rfl, rfl, rfl, rfl, rfl⟩, ⟨readData_returnFromInterrupt s, fun _ => rfl, fun _ => rfl, fun _ => rfl⟩,
    returnFromInterrupt_events s⟩

/-! ### A request left pending -/

/-- Stage S1 clears the count alone: any other register that is not 0 is not 0 after it (R230, R235). -/
theorem pended_ne_zero {s : State} {n : IoIdx} (hn : n ≠ timercurrent) (h : readIo s n ≠ 0#32) :
    readIo (stagePend (stageStart s)) n ≠ 0#32 := by
  rw [readIo_pended]
  split_ifs with hline hmatch hcount
  · decide
  · decide
  · exact absurd hcount.2 hn
  · exact h

/-- A line requests while its enable and its status are both not 0 (D18). -/
theorem lineRequests_iff (s : State) (enable status : IoIdx) :
    lineRequests s enable status = true ↔ readIo s enable ≠ 0#32 ∧ readIo s status ≠ 0#32 := by
  simp only [lineRequests, Bool.and_eq_true, decide_eq_true_eq]

/-- A request is a level (D38): a line that requests between two cycles requests after stage S1 of the next. -/
theorem lineRequests_pended {s : State} {enable status : IoIdx} (henable : enable ≠ timercurrent)
    (hstatus : status ≠ timercurrent) (h : readIo s enable ≠ 0#32 ∧ readIo s status ≠ 0#32) :
    lineRequests (stagePend (stageStart s)) enable status = true :=
  (lineRequests_iff _ _ _).mpr (h.imp (pended_ne_zero henable) (pended_ne_zero hstatus))

/-- Line 0 or line 1, left enabled and pending, makes the aggregate request of the next cycle (R220). -/
theorem irqRequest_pended {s : State}
    (h : (readIo s irq0enable ≠ 0#32 ∧ readIo s irq0status ≠ 0#32) ∨
      (readIo s irq1enable ≠ 0#32 ∧ readIo s irq1status ≠ 0#32)) :
    irqRequest (stagePend (stageStart s)) = true := by
  rw [irqRequest, Bool.or_eq_true, Bool.or_eq_true]
  exact .inl (h.imp (lineRequests_pended (by decide) (by decide)) (lineRequests_pended (by decide) (by decide)))

/-- Settles O44: `reti` leaves the latch clear, and the request stands until stage S2 of the next cycle. -/
theorem pendingStatusReentersAfterReti : Obligations.PendingStatusReentersAfterReti := by
  intro s t f hfetched h hpending
  obtain ⟨hreti, -⟩ := inServiceFollowsEntryAndReti s t h
  have hreleased : t.inService = false := hreti ⟨f, hfetched⟩
  have htaken : interruptTaken t = true := (interruptTaken_iff t).mpr ⟨irqRequest_pended hpending, hreleased⟩
  exact ⟨htaken, beforeFetch_of_interruptTaken htaken⟩

/-! ### `in`, `out` and `halt` -/

/-- `in` from an I/O register reads it into `x[rd]` (R195). -/
theorem exec_input_inRange {f : Fields} {s : State} {n : IoIdx} (h : effectiveAddress f s = (n.val : Int)) :
    exec (.input f) s =
      .next (emit (writeReg s f.rd (readIo s n)) (.hwAccess s.cycle n .read (readIo s n))) := by
  simp only [exec, execIn, checkedAccess_inRange n h]

/-- Settles O26: the read is one register write, and the event leaves its frame. -/
theorem inReadsAnIoRegister : Obligations.InReadsAnIoRegister := by
  intro f s n haddress
  obtain ⟨hregister, hpc, hio, hcontrol, hmemories, -⟩ := onlyRegister_writeReg s f.rd (readIo s n)
  exact ⟨_, exec_input_inRange haddress, hregister, hpc, hio, hcontrol, hmemories, emit_events _ _⟩

/-- Settles O27: the write is one I/O write, and the event leaves its frame. -/
theorem outWritesAnIoRegister : Obligations.OutWritesAnIoRegister :=
  fun f s n haddress => ⟨_, exec_output_inRange haddress, fun m => readIo_writeIo s n m (readReg s f.rm),
    readReg_writeIo s n (readReg s f.rm), ⟨rfl, rfl⟩, ⟨rfl, rfl, rfl, rfl, rfl, rfl, rfl⟩,
    ⟨readData_writeIo s n (readReg s f.rm), fun _ => rfl, fun _ => rfl, fun _ => rfl⟩, emit_events _ _⟩

/-- `halt` sets the flag in every state (R204). -/
theorem exec_halt (f : Fields) (s : State) : exec (.halt f) s = .next { s with halted := true } := rfl

/-- Settles O31: the flag is the one field written. -/
theorem haltSetsOnlyTheHaltFlag : Obligations.HaltSetsOnlyTheHaltFlag :=
  fun f s => ⟨_, exec_halt f s, rfl, fun _ => rfl, ⟨rfl, rfl⟩, fun _ => rfl, rfl, ⟨rfl, rfl, rfl, rfl, rfl⟩,
    ⟨fun _ => rfl, fun _ => rfl, fun _ => rfl, fun _ => rfl⟩, rfl⟩

end Sys2Proof.Machine

/-! PROOFS. The external line. The schedule pointer stands at the only entry that can be this cycle's number, so the
line is high exactly when the schedule lists the cycle, and the pointer's place is kept by every step (R235, D27). -/

namespace Sys2Proof.Machine

/-! ### Ascending schedules -/

/-- The launch premise on the schedule as the library's chain of neighbours. -/
theorem strictlyAscending_iff_isChain (l : List Nat) : strictlyAscending l = true ↔ l.IsChain (· < ·) := by
  induction l using strictlyAscending.induct with
  | case1 => simp [strictlyAscending]
  | case2 a => simp [strictlyAscending]
  | case3 a b rest ih => simp [strictlyAscending, ih]

/-- In a strictly ascending list an earlier entry is below a later one. -/
theorem lt_of_strictlyAscending {l : List Nat} (h : strictlyAscending l = true) {i j x y : Nat} (hij : i < j)
    (hx : l[i]? = some x) (hy : l[j]? = some y) : x < y := by
  obtain ⟨hi, rfl⟩ := List.getElem?_eq_some_iff.mp hx
  obtain ⟨hj, rfl⟩ := List.getElem?_eq_some_iff.mp hy
  have hpairwise := ((strictlyAscending_iff_isChain l).mp h).pairwise
  exact List.pairwise_iff_getElem.mp hpairwise i j hi hj hij

/-! ### The pointer and the cycle number -/

/-- The entry of this cycle can stand nowhere but at the pointer. -/
theorem ScheduleInvariant.eq_schedIdx {s : State} (inv : ScheduleInvariant s) {j : Nat}
    (h : s.cfg.irq2Schedule[j]? = some s.cycle) : j = s.schedIdx := by
  rcases Nat.lt_trichotomy j s.schedIdx with hpast | hhere | hahead
  · exact absurd (inv.past j _ hpast h) (Nat.lt_irrefl _)
  · exact hhere
  · obtain ⟨hlen, -⟩ := List.getElem?_eq_some_iff.mp h
    have hentry := List.getElem?_eq_getElem (hahead.trans hlen)
    have hbelow := lt_of_strictlyAscending inv.ascending hahead hentry h
    exact absurd (inv.ahead _ _ le_rfl hentry) (Nat.not_le.mpr hbelow)

/-- The comparison of stage S1 with one entry decides whether the schedule lists the cycle at all. -/
theorem ScheduleInvariant.lineHigh_iff {s : State} (inv : ScheduleInvariant s) :
    lineHigh s ↔ s.cycle ∈ s.cfg.irq2Schedule := by
  refine ⟨List.mem_of_getElem?, fun hmem => ?_⟩
  obtain ⟨j, hj⟩ := List.mem_iff_getElem?.mp hmem
  rwa [inv.eq_schedIdx hj] at hj

/-- The pointer after a cycle: past the entry of a cycle in which the line was high, else where it was. -/
theorem step_schedIdx {s t : State} (h : step s = .next t) :
    t.schedIdx = if lineHigh s then s.schedIdx + 1 else s.schedIdx := by
  obtain ⟨-, w, b, s5, -, -, start, -, execute, finish⟩ := step_cases h
  rw [finish.schedIdx, execute.keeps.schedIdx, start.schedIdx]

/-- No stage writes the parameters (R58). -/
theorem step_cfg {s t : State} (h : step s = .next t) : t.cfg = s.cfg := by
  obtain ⟨-, w, b, s5, -, -, start, -, execute, finish⟩ := step_cases h
  rw [finish.cfg, execute.keeps.cfg, start.cfg]

/-- Settles O49: the pointer moves exactly past the entry that the cycle number passes. -/
theorem schedulePointerIsKept : Obligations.SchedulePointerIsKept := by
  intro s t inv h
  have hcfg := step_cfg h
  have hcycle := step_cycle h
  have hidx := step_schedIdx h
  refine ⟨hcfg ▸ inv.ascending, fun j e hj he => ?past, fun j e hj he => ?ahead⟩
  case past =>
    rw [hcfg] at he
    rw [hcycle, Nat.lt_succ_iff]
    by_cases hbefore : j < s.schedIdx
    · exact (inv.past j e hbefore he).le
    · by_cases hline : lineHigh s
      · rw [hidx, if_pos hline] at hj
        obtain rfl : j = s.schedIdx := by omega
        exact (Option.some.inj (he.symm.trans hline)).le
      · rw [hidx, if_neg hline] at hj
        exact absurd hj hbefore
  case ahead =>
    rw [hcfg] at he
    have hat : s.schedIdx ≤ j := by
      rw [hidx] at hj
      split_ifs at hj <;> omega
    rw [hcycle, Nat.succ_le_iff]
    refine (inv.ahead j e hat he).lt_of_ne fun hnow => ?_
    subst hnow
    obtain rfl := inv.eq_schedIdx he
    rw [hidx, if_pos he] at hj
    exact Nat.not_succ_le_self _ hj

/-- Settles O48: under the invariant the comparison at the pointer is membership in the schedule. -/
theorem externalLineIsHighExactlyWhenScheduled : Obligations.ExternalLineIsHighExactlyWhenScheduled := by
  intro s inv
  rw [← inv.lineHigh_iff, pended_schedIdx, readIo_pended]
  refine ⟨fun hline => ⟨if_pos ⟨rfl, hline⟩, if_pos hline⟩, fun hline => ⟨?_, if_neg hline⟩⟩
  rw [if_neg fun h => hline h.2, if_neg fun h => absurd h.2 (by decide), if_neg fun h => absurd h.2 (by decide)]

end Sys2Proof.Machine

/-! PROOFS. Interrupt entry and the timer. Stage S2 as one condition on the state after stage S1, the compare of stage
S1 and the count of stage S8 around stage S5, and the timer's period as an induction over a run. -/

namespace Sys2Proof.Machine

/-! ### The entry in stage S2 -/

/-- Stage S2 is an entry when the cycle takes an interrupt, and nothing else (R222). -/
theorem beforeFetch_eq_ite (s : State) : beforeFetch s =
    if interruptTaken s = true then enterInterrupt (stagePend (stageStart s)) else stagePend (stageStart s) := by
  simp only [beforeFetch, stageVector_cases, pended_inService, interruptTaken_iff]

/-- The aggregate request is the request of one of the three lines (R220). -/
theorem irqRequest_iff (s : State) : irqRequest s = true ↔
    (readIo s irq0enable ≠ 0#32 ∧ readIo s irq0status ≠ 0#32) ∨
      (readIo s irq1enable ≠ 0#32 ∧ readIo s irq1status ≠ 0#32) ∨
      (readIo s irq2enable ≠ 0#32 ∧ readIo s irq2status ≠ 0#32) := by
  simp only [irqRequest, Bool.or_eq_true, lineRequests_iff, or_assoc]

/-- Settles O41: the three cases are `interruptTaken` spelt out, the one entry of the cycle, and no entry. -/
theorem interruptEntrySavesAndVectors : Obligations.InterruptEntrySavesAndVectors := by
  intro s p
  refine ⟨?condition, fun htaken => ?entry, fun hnot => ?none⟩
  case condition => rw [interruptTaken_iff, irqRequest_iff, and_comm]
  case entry =>
    obtain ⟨hsaved, hvectored, hlatched⟩ := beforeFetch_of_interruptTaken htaken
    have hentered : beforeFetch s = enterInterrupt p := by rw [beforeFetch_eq_ite, if_pos htaken]
    refine ⟨?_, ?_, hlatched, beforeFetch_pcSet s, ?_⟩
    · rw [hsaved, zext12, BitVec.toNat_setWidth]
      omega
    · rw [hvectored, toNat_low12]
    · rw [hentered]
      exact ⟨fun n hn => (readIo_enterInterrupt p n).trans (if_neg hn), readReg_enterInterrupt p,
        ⟨readData_enterInterrupt p, fun _ => rfl, fun _ => rfl, fun _ => rfl⟩, ⟨rfl, rfl, rfl, rfl, rfl⟩,
        enterInterrupt_halted p, enterInterrupt_events p⟩
  case none => rw [beforeFetch_eq_ite, if_neg (Bool.eq_false_iff.mp hnot)]

/-! ### The timer in one cycle -/

/-- The compare of R230 with its gate (D17). -/
theorem timerMatches_iff (s : State) : timerMatches s = true ↔
    (s.cfg.timerMatchGated = false ∨ readIo s timerenable ≠ 0#32) ∧ readIo s timercurrent = readIo s timermax := by
  simp only [timerMatches, Bool.and_eq_true, Bool.or_eq_true, Bool.not_eq_true', decide_eq_true_eq]

/-- While the timer is enabled the gate is open in both of its readings (D17). -/
theorem timerMatches_iff_of_enabled {s : State} (h : readIo s timerenable ≠ 0#32) :
    timerMatches s = true ↔ readIo s timercurrent = readIo s timermax := by
  rw [timerMatches_iff, and_iff_right (.inr h)]

/-- Settles O45: on a match the two registers are written, and otherwise nothing is. -/
theorem timerComparePendsAndClears : Obligations.TimerComparePendsAndClears := by
  intro s
  rw [← timerMatches_iff]
  refine ⟨fun hmatch n => ?onMatch, fun hno => if_neg hno, ?frame⟩
  case onMatch =>
    rw [pendTimer, if_pos hmatch, readIo_writeIo, readIo_writeIo]
    by_cases hn : n = timercurrent
    · subst hn
      rw [if_pos rfl, if_neg (by decide), if_pos rfl]
    · rw [if_neg hn, if_neg hn]
  case frame =>
    unfold pendTimer
    split <;> rfl

/-- The count before stage S5: cleared on a match (R230). -/
theorem CycleStart.io_timercurrent {s b : State} {w : InstrWord} (start : CycleStart s b w) :
    readIo b timercurrent = if timerMatches s = true then 0#32 else readIo s timercurrent := by
  rw [start.io, readIo_pended]
  simp [show timercurrent ≠ irqreturn by decide, show timercurrent ≠ irq2status by decide,
    show timercurrent ≠ irq0status by decide]

/-- The timer's status before stage S5: set on a match (R230). -/
theorem CycleStart.io_irq0status {s b : State} {w : InstrWord} (start : CycleStart s b w) :
    readIo b irq0status = if timerMatches s = true then 1#32 else readIo s irq0status := by
  rw [start.io, readIo_pended]
  simp [show irq0status ≠ irqreturn by decide, show irq0status ≠ irq2status by decide,
    show irq0status ≠ timercurrent by decide]

/-- A register that no stage but S5 writes is kept by a cycle without an `out` to it. -/
theorem NoOutTo.step_io_kept {s t : State} {n : IoIdx} (hno : NoOutTo s n) (h : step s = .next t)
    (hn : n ∉ hardwareWritten) : readIo t n = readIo s n := by
  by_contra hchanged
  obtain ⟨f, hfetched, haddress⟩ := step_io_changed_only_by_out h hn hchanged
  exact hno f hfetched haddress

/-- Settles O46: stage S1 clears, stage S5 leaves the register, stage S8 counts. -/
theorem timerLeftAloneCounts : Obligations.TimerLeftAloneCounts := by
  intro s t h
  obtain ⟨-, w, b, s5, rfl, rfl, start, -, execute, finish⟩ := step_cases h
  refine ⟨fun hno => ?current, fun hno => ?status, fun hno => hno.step_io_kept h (by decide),
    fun hno => hno.step_io_kept h (by decide)⟩
  case current =>
    rw [finish.io_timercurrent, hno.io_kept execute, start.io_timercurrent, add_ite, BitVec.add_zero]
  case status => rw [finish.io_kept (by decide) (by decide), hno.io_kept execute, start.io_irq0status]

/-! ### The period of the timer -/

/-- No `out` to a register of the timer in the next cycle. -/
def TimerUndisturbed (s : State) : Prop := NoOutTo s timercurrent ∧ NoOutTo s timermax ∧ NoOutTo s timerenable

/-- A cycle of an enabled timer that no `out` disturbs: the count starts again from 1 after a match, and goes up by 1
otherwise. -/
theorem TimerUndisturbed.step_counts {s t : State} (hno : TimerUndisturbed s) (h : step s = .next t)
    (henabled : readIo s timerenable ≠ 0#32) :
    readIo t timercurrent =
        (if readIo s timercurrent = readIo s timermax then 0#32 else readIo s timercurrent) + 1#32 ∧
      readIo t timermax = readIo s timermax ∧ readIo t timerenable = readIo s timerenable := by
  obtain ⟨hcurrent, hmax, henable⟩ := hno
  obtain ⟨hcount, -, hkeptEnable, hkeptMax⟩ := timerLeftAloneCounts s t h
  refine ⟨?_, hkeptMax hmax, hkeptEnable henable⟩
  rw [hcount hcurrent, hkeptEnable henable, if_neg henabled]
  simp only [timerMatches_iff_of_enabled henabled]

/-- From a match on, the count of an undisturbed timer is the number of cycles, up to `timermax`. -/
theorem runCycles_timer {s : State} (hmatch : readIo s timercurrent = readIo s timermax)
    (henabled : readIo s timerenable ≠ 0#32) {n : Nat} {t : State} (hle : n + 1 ≤ (readIo s timermax).toNat)
    (hno : ∀ m u, m < n + 1 → runCycles m s = .next u → TimerUndisturbed u) (h : runCycles (n + 1) s = .next t) :
    (readIo t timercurrent).toNat = n + 1 ∧ readIo t timermax = readIo s timermax ∧
      readIo t timerenable = readIo s timerenable := by
  induction n generalizing t with
  | zero =>
    obtain ⟨u, hu, hstep⟩ := runCycles_succ_eq_next.mp h
    obtain rfl := next_inj.mp hu
    obtain ⟨hcount, hmax, henable⟩ := (hno 0 s (by omega) rfl).step_counts hstep henabled
    rw [if_pos hmatch] at hcount
    exact ⟨congrArg BitVec.toNat hcount, hmax, henable⟩
  | succ n ih =>
    obtain ⟨u, hu, hstep⟩ := runCycles_succ_eq_next.mp h
    obtain ⟨hcountU, hmaxU, henableU⟩ := ih (by omega) (fun m v hm => hno m v (by omega)) hu
    obtain ⟨hcount, hmax, henable⟩ := (hno (n + 1) u (by omega) hu).step_counts hstep (henableU ▸ henabled)
    have hbelow : readIo u timercurrent ≠ readIo u timermax := by
      intro heq
      rw [heq, hmaxU] at hcountU
      omega
    rw [if_neg hbelow] at hcount
    refine ⟨?_, hmax.trans hmaxU, henable.trans henableU⟩
    have hbound := (readIo s timermax).isLt
    rw [hcount, BitVec.toNat_add, hcountU, BitVec.toNat_ofNat]
    omega

/-- Settles O47: the count equals `timermax` after N cycles and not before. -/
theorem timerPeriodIsTimermax : Obligations.TimerPeriodIsTimermax := by
  intro s t n hmatch _ henabled hpos hle hno h
  obtain ⟨k, rfl⟩ := Nat.exists_eq_succ_of_ne_zero (Nat.one_le_iff_ne_zero.mp hpos)
  obtain ⟨hcount, hmax, henable⟩ := runCycles_timer hmatch henabled hle hno h
  refine ⟨hcount, hmax, henable, ?_⟩
  rw [timerMatches_iff_of_enabled (henable ▸ henabled), hmax, ← BitVec.toNat_inj, hcount]

end Sys2Proof.Machine

/-! PROOFS. The disk controller. Stage S7 in its four cases and its fault, and a transfer in flight followed over a run
up to its completion cycle. -/

namespace Sys2Proof.Machine

/-! ### Acceptance -/

/-- The check of R244 on the signed values, with the sizes of R5. -/
theorem diskCommandInRange_iff (s : State) : diskCommandInRange s = true ↔
    0 ≤ (readIo s disksector).toInt ∧ (readIo s disksector).toInt ≤ 127 ∧ 0 ≤ (readIo s diskbuffer).toInt ∧
      (readIo s diskbuffer).toInt + 127 < s.cfg.dmemWords := by
  simp only [diskCommandInRange, Bool.and_eq_true, decide_eq_true_eq]
  simp only [diskSectors, sectorWords, Nat.cast_ofNat]
  omega

/-- Settles O50: acceptance is the block copy of R244 and the three writes of R243. -/
theorem diskAcceptanceMovesOneSector : Obligations.DiskAcceptanceMovesOneSector := by
  intro s K B idle command hK0 hK127 hB0 hB
  have inRange : diskCommandInRange s = true := (diskCommandInRange_iff s).mpr ⟨hK0, hK127, hB0, hB⟩
  obtain ⟨hbuffer, hsector⟩ : B = bufferAddress s ∧ K * sectorWords = diskOffset s := diskCommandInRange_toInt inRange
  have hwords : sectorWords = 128 := rfl
  rw [hwords] at hsector
  refine ⟨diskAccept s, stageDisk_eq_next.mpr (.inr (.inr (.inr ⟨idle, command, inRange, rfl⟩))), rfl, rfl,
    readIo_diskAccept s, fun a => ?data, fun k => ?disk, readReg_congr (diskAccept_regs s),
    ⟨diskAccept_pc s, diskAccept_pcSet s⟩, diskAccept_inService s, diskAccept_halted s, diskAccept_cycle s,
    diskAccept_schedIdx s, diskAccept_cfg s, diskAccept_imem s, diskAccept_fb s, diskAccept_events s⟩
  case data =>
    have hread : readData (diskAccept s) a = readData (diskTransfer s) a := rfl
    have hcond : B ≤ a ∧ (a : Int) < B + 128 ↔ bufferAddress s ≤ a ∧ a < bufferAddress s + sectorWords := by omega
    have haddress : 128 * K.toNat + (a - B.toNat) = diskOffset s + (a - bufferAddress s) := by omega
    simp only [hread, readData_diskTransfer, hcond, haddress]
  case disk =>
    have hread : Memory.read (diskAccept s).disk k = Memory.read (diskTransfer s).disk k := rfl
    have hcond : 128 * K ≤ k ∧ (k : Int) < 128 * K + 128 ↔
        diskOffset s ≤ k ∧ k < diskOffset s + sectorWords := by omega
    have haddress : B.toNat + (k - 128 * K.toNat) = bufferAddress s + (k - diskOffset s) := by omega
    simp only [hread, readDisk_diskTransfer, hcond, haddress]

/-! ### The other cases of stage S7 -/

/-- A command out of range is the fault of stage S7 (R244, D21). -/
theorem stageDisk_outOfRange {s : State} (idle : s.diskBusy = false) (command : readIo s diskcmd ≠ 0#32)
    (h : ¬ diskCommandInRange s = true) : stageDisk s = .fault .diskRange := by
  rw [stageDisk, if_neg (Bool.eq_false_iff.mp idle), if_neg command, if_neg h]

/-- Settles O51: one case of `stageDisk_eq_next` after the other, and the fault. -/
theorem diskStageOtherwise : Obligations.DiskStageOtherwise := by
  intro s
  refine ⟨fun busy now => ?completes, fun busy later => ?waits, fun idle none => ?idles,
    fun idle command hout => stageDisk_outOfRange idle command ?fault⟩
  case completes =>
    refine ⟨diskComplete s, stageDisk_eq_next.mpr (.inl ⟨busy, now, rfl⟩), rfl, fun n => ?_, fun _ => rfl,
      ⟨rfl, rfl⟩, ⟨fun _ => rfl, fun _ => rfl, fun _ => rfl, fun _ => rfl⟩, rfl, rfl, rfl, rfl⟩
    simp only [readIo_diskComplete, or_comm]
  case waits => exact stageDisk_eq_next.mpr (.inr (.inl ⟨busy, later, rfl⟩))
  case idles => exact stageDisk_eq_next.mpr (.inr (.inr (.inl ⟨idle, none, rfl⟩)))
  case fault =>
    rw [diskCommandInRange_iff]
    omega

/-! ### A transfer in flight -/

/-- No stage before S7 touches a transfer or the cycle number. -/
theorem ExecuteEffect.transfer_kept {s b s5 : State} {w : InstrWord} (execute : ExecuteEffect w b s5)
    (start : CycleStart s b w) : s5.diskBusy = s.diskBusy ∧ s5.diskDone = s.diskDone ∧ s5.cycle = s.cycle :=
  ⟨execute.keeps.diskBusy.trans start.diskBusy, execute.keeps.diskDone.trans start.diskDone,
    execute.keeps.cycle.trans start.cycle⟩

/-- Before its completion cycle a transfer stays in flight, whatever the instruction does (R245). -/
theorem step_transfer_waits {s t : State} (h : step s = .next t) (busy : s.diskBusy = true)
    (later : s.cycle ≠ s.diskDone) : t.diskBusy = true ∧ t.diskDone = s.diskDone := by
  obtain ⟨-, w, b, s5, -, -, start, -, execute, finish⟩ := step_cases h
  obtain ⟨hbusy, hdone, hcycle⟩ := execute.transfer_kept start
  cases finish.disk with
  | completes _ now => exact absurd (hcycle.symm.trans (now.trans hdone)) later
  | waits _ _ still done => exact ⟨still, done.trans hdone⟩
  | idles idle | accepts idle => simp [hbusy, busy] at idle

/-- The completion cycle ends the transfer after stage S5, so that no `out` of the cycle undoes it (R246). -/
theorem step_transfer_completes {s t : State} (h : step s = .next t) (busy : s.diskBusy = true)
    (now : s.cycle = s.diskDone) : t.diskBusy = false ∧ readIo t diskcmd = 0#32 ∧
      readIo t diskstatus = 0#32 ∧ readIo t irq1status = 1#32 := by
  obtain ⟨-, w, b, s5, -, -, start, -, execute, finish⟩ := step_cases h
  obtain ⟨hbusy, hdone, hcycle⟩ := execute.transfer_kept start
  rw [busy] at hbusy
  have hnow : s5.cycle = s5.diskDone := by rw [hcycle, hdone, now]
  have hio : ∀ n ∈ [irq1status, diskstatus, diskcmd], afterDisk s5 n = if n = irq1status then 1#32 else 0#32 :=
    fun n hn => (finish.disk.afterDisk_eq hn).trans (if_pos ((transferCompletes_iff s5).mpr ⟨hbusy, hnow⟩))
  have hidle : t.diskBusy = false := by
    cases finish.disk with
    | completes _ _ idle => exact idle
    | waits _ later => exact absurd hnow later
    | idles idle | accepts idle => simp [hbusy] at idle
  refine ⟨hidle, ?_, ?_, ?_⟩ <;> rw [finish.io_afterDisk (by decide), hio _ (by decide)] <;> rfl

/-- Up to its completion cycle a transfer is in flight after every cycle of a run. -/
theorem runCycles_transfer_waits {s : State} (busy : s.diskBusy = true) {n : Nat} {t : State}
    (hn : s.cycle + n ≤ s.diskDone) (h : runCycles n s = .next t) :
    t.diskBusy = true ∧ t.diskDone = s.diskDone ∧ t.cycle = s.cycle + n := by
  induction n generalizing t with
  | zero =>
    obtain rfl := next_inj.mp h
    exact ⟨busy, rfl, rfl⟩
  | succ n ih =>
    obtain ⟨u, hu, hstep⟩ := runCycles_succ_eq_next.mp h
    obtain ⟨busyU, doneU, cycleU⟩ := ih (by omega) hu
    obtain ⟨busyT, doneT⟩ := step_transfer_waits hstep busyU (by omega)
    exact ⟨busyT, doneT.trans doneU, by rw [step_cycle hstep, cycleU, Nat.add_assoc]⟩

/-- Settles O52: the cycles in flight by induction, and then the completion cycle. -/
theorem transferCompletesAfterExactlyItsLatency : Obligations.TransferCompletesAfterExactlyItsLatency := by
  intro s t n busy hdue h
  refine ⟨fun hn => ?inFlight, fun hn => ?completed⟩
  case inFlight =>
    obtain ⟨busyT, doneT, -⟩ := runCycles_transfer_waits busy (by omega) h
    exact ⟨busyT, doneT⟩
  case completed =>
    subst hn
    obtain ⟨u, hu, hstep⟩ := runCycles_succ_eq_next.mp h
    obtain ⟨busyU, doneU, cycleU⟩ := runCycles_transfer_waits busy (by omega) hu
    exact step_transfer_completes hstep busyU (by omega)

end Sys2Proof.Machine

/-! PROOFS. The output devices. The monitor's cell, and the two logs, whose entries no other stage emits. -/

namespace Sys2Proof.Machine

/-! ### The monitor -/

/-- Settles O53: the two cases in which stage S6 goes on, and the fault between them. -/
theorem monitorWritesItsCell : Obligations.MonitorWritesItsCell := by
  intro s
  refine ⟨fun hcmd haddr => ?writes, fun hcmd haddr => ?fault,
    fun hcmd => monitorService_eq_next.mpr (.inr ⟨hcmd, rfl⟩)⟩
  case writes =>
    have hcell : (readIo s monitoraddr).toNat < fbCells := Nat.lt_succ_of_le haddr
    exact ⟨_, monitorService_eq_next.mpr (.inl ⟨hcmd, hcell, rfl⟩), fun c => Memory.read_write s.fb _ c _, rfl⟩
  case fault =>
    have hcell : ¬ (readIo s monitoraddr).toNat < fbCells := Nat.not_lt.mpr haddr
    rw [monitorService, if_pos hcmd, if_neg hcell]

/-! ### The logs -/

/-- Stage S5 adds no event but a diagnostic or a hardware access (R195, R199, R211, R212). -/
theorem ExecuteEffect.events_added {w : InstrWord} {b s5 : State} (e : ExecuteEffect w b s5) {x : Event}
    (h : x ∈ s5.events) : x ∈ b.events ∨ (∃ sum, x = .diagNegativeAddress sum) ∨ (∃ op, x = .diagUnknownOpcode op) ∨
      ∃ c n d v, x = .hwAccess c n d v := by
  have hemit : ∀ {u : State} {y : Event}, x ∈ (emit u y).events → x ∈ u.events ∨ x = y := by
    intro u y hx
    simpa using hx
  cases e with
  | unknown _ effect =>
    subst effect
    exact (hemit h).imp id fun hx => .inr (.inl ⟨_, hx⟩)
  | known i _ _ effect =>
    cases effect with
    | skip => exact (hemit h).imp id fun hx => .inl ⟨_, hx⟩
    | readIo | writeIo => exact (hemit h).imp id fun hx => .inr (.inr ⟨_, _, _, _, hx⟩)
    | nothing | register | jump | link | store | giveBack | halt => exact .inl h

/-- The stages before S6 log neither the LEDs nor the display. -/
theorem ExecuteEffect.no_log {s b s5 : State} {w : InstrWord} (execute : ExecuteEffect w b s5)
    (start : CycleStart s b w) (c : Nat) (v : Word) :
    Event.leds c v ∉ s5.events ∧ Event.display7seg c v ∉ s5.events := by
  constructor <;> intro hmem <;> simpa [start.events] using execute.events_added hmem

/-- Outside stage S5 a cycle leaves both output ports. -/
theorem port_kept_outside_execute {s b s5 t : State} {w : InstrWord} (start : CycleStart s b w)
    (finish : CycleEnd b s5 t) {n : IoIdx} (hn : n = leds ∨ n = display7seg) :
    readIo b n = readIo s n ∧ readIo t n = readIo s5 n := by
  rcases hn with rfl | rfl <;> exact ⟨start.io_kept (by decide), finish.io_kept (by decide) (by decide)⟩

/-- Settles O54: the entries are those of stage S6, and each register changes in stage S5 alone. -/
theorem ledAndDisplayChangesAreLogged : Obligations.LedAndDisplayChangesAreLogged := by
  intro s t h
  obtain ⟨-, w, b, s5, -, -, start, -, execute, finish⟩ := step_cases h
  obtain ⟨added, log⟩ := finish.log
  have hcycle : s5.cycle = s.cycle := execute.keeps.cycle.trans start.cycle
  obtain ⟨hledsBefore, hledsAfter⟩ := port_kept_outside_execute start finish (.inl rfl)
  obtain ⟨hdisplayBefore, hdisplayAfter⟩ := port_kept_outside_execute start finish (.inr rfl)
  rw [log.events, List.mem_append, List.mem_append, log.leds, log.display7seg, hcycle, hledsAfter, hledsBefore,
    hdisplayAfter, hdisplayBefore]
  simp only [execute.no_log start, false_or, true_and]
  exact ⟨ne_comm, ne_comm⟩

end Sys2Proof.Machine

/-! PROOFS. The rest of the ALU: the difference, the product and the logic of three sources as the operations on words,
and the three shifts by the whole signed amount (R142 to R150). -/

namespace Sys2Proof.Machine

/-! ### Difference and product -/

/-- Reducing the exact difference of the signed readings is subtracting the words (R9, R142). -/
theorem subWords_eq (a b c : Word) : subWords a b c = a - b - c := by
  simp only [subWords, wrap32, Int.sub_eq_add_neg, BitVec.sub_eq_add_neg, BitVec.ofInt_add, BitVec.ofInt_neg,
    BitVec.ofInt_toInt]

/-- Reducing the full product once is multiplying the words (R9, R143); `macThird` subtracts (D6). -/
theorem macWords_eq (a b c : Word) : macWords a b c = a * b - c := by
  simp only [macWords, macThird, wrap32, BitVec.sub_eq_add_neg, BitVec.ofInt_add, BitVec.ofInt_neg, BitVec.ofInt_mul,
    BitVec.ofInt_toInt]

/-- Settles O10: one register write, of the difference of the words. -/
theorem subWritesTheWrappedDifference : Obligations.SubWritesTheWrappedDifference :=
  fun f s => subWords_eq _ _ _ ▸ aluThree_spec subWords f s

/-- Settles O11: one register write, of the product of the words less the third. -/
theorem macWritesTheWrappedProductLessRm : Obligations.MacWritesTheWrappedProductLessRm :=
  fun f s => macWords_eq _ _ _ ▸ aluThree_spec macWords f s

/-- Settles O12: each of the three is one register write, of its operation on the words. -/
theorem logicOpsCombineThreeSources : Obligations.LogicOpsCombineThreeSources :=
  fun f s => ⟨aluThree_spec (fun a b c => a &&& b &&& c) f s, aluThree_spec (fun a b c => a ||| b ||| c) f s,
    aluThree_spec (fun a b c => a ^^^ b ^^^ c) f s⟩

/-! ### Shifts by the whole amount -/

/-- Below 32 the reduced product by `2 ^ n` is the shift of the word (R148). -/
theorem sllBy_eq_ite (v : Word) (n : Nat) : sllBy v n = if 32 ≤ n then 0#32 else v <<< n := by
  rw [sllBy, wrap32, BitVec.ofInt_natCast, ← Nat.shiftLeft_eq]
  rfl

/-- Below 31 the quotient rounded down is the arithmetic shift of the word (R149). -/
theorem sraBy_eq_ite (v : Word) (n : Nat) :
    sraBy v n = if 31 ≤ n then (if v.msb then 0xFFFFFFFF#32 else 0#32) else v.sshiftRight n := by
  rw [sraBy, wrap32, ← Int.shiftRight_eq_div_pow, BitVec.sshiftRight]

/-- Below 32 the quotient of the unsigned reading is the logical shift of the word (R150). -/
theorem srlBy_eq_ite (v : Word) (n : Nat) : srlBy v n = if 32 ≤ n then 0#32 else v >>> n := by
  rw [srlBy, ← Nat.shiftRight_eq_div_pow, ← BitVec.toNat_ushiftRight, BitVec.ofNat_toNat, BitVec.setWidth_eq]

/-- The rule of a shift whose result settles from the amount `limit` on (R147, D7): `settled` of the shifted word from
there on, `shifted` below, and SHIFT_NEG for a negative amount. -/
theorem aluShift_spec {by_ shifted : Word → Nat → Word} {limit : Nat} {settled : Word → Word}
    (rule : ∀ v n, by_ v n = if limit ≤ n then settled v else shifted v n) (kind : ShiftKind) (f : Fields)
    (s : State) : ∃ t, aluShift kind by_ f s = .next t ∧ OnlyRegister s t f.rd
      (if signedReg s f.rt < 0 then Config.shiftNeg kind (readReg s f.rs) (readReg s f.rt)
       else if (limit : Int) ≤ signedReg s f.rt then settled (readReg s f.rs)
       else shifted (readReg s f.rs) (signedReg s f.rt).toNat) := by
  refine ⟨_, writeResult_eq _ _ _, ?_⟩
  rw [shiftWords, rule]
  by_cases hneg : signedReg s f.rt < 0
  · rw [if_pos hneg, if_pos hneg]
    exact onlyRegister_writeReg _ _ _
  · have hlimit : limit ≤ (signedReg s f.rt).toNat ↔ (limit : Int) ≤ signedReg s f.rt := by omega
    simp only [if_neg hneg, hlimit]
    exact onlyRegister_writeReg _ _ _

/-- Settles O13: from 32 places on nothing is left. -/
theorem sllShiftsByTheWholeAmount : Obligations.SllShiftsByTheWholeAmount :=
  aluShift_spec sllBy_eq_ite .sll

/-- Settles O14: from 31 places on the sign is left. -/
theorem sraShiftsByTheWholeAmount : Obligations.SraShiftsByTheWholeAmount :=
  aluShift_spec (settled := fun v => if v.msb then 0xFFFFFFFF#32 else 0#32) sraBy_eq_ite .sra

/-- Settles O15: from 32 places on nothing is left. -/
theorem srlShiftsByTheWholeAmount : Obligations.SrlShiftsByTheWholeAmount :=
  aluShift_spec srlBy_eq_ite .srl

end Sys2Proof.Machine

/-! PROOFS. Jump and link. The link value as a word and as an instruction address, and the target that `jal` reads
after the link is written (R172, D14, D39). -/

namespace Sys2Proof.Machine

/-- The link does not wrap at 12 bits (D14). -/
theorem linkValue_eq_ofNat (s : State) : linkValue s = BitVec.ofNat 32 (s.pc.toNat + 1) := by
  rw [linkValue, wrap32, ← Nat.cast_succ, BitVec.ofInt_natCast]

/-- A jump to the link wraps it, as stage S9 does (D14, R130). -/
theorem low12_linkValue (s : State) : low12 (linkValue s) = s.pc + 1#12 := by
  apply BitVec.eq_of_toNat_eq
  rw [toNat_low12, linkValue_eq_ofNat, BitVec.toNat_ofNat, toNat_pc_add_one]
  omega

/-- The target of `jal`: its own link when it links the register it jumps through (D39). -/
theorem low12_readReg_linked (f : Fields) (s : State) : low12 (readReg (writeReg s f.rd (linkValue s)) f.rm) =
    if f.rm = f.rd ∧ f.rm ≠ 0#4 then s.pc + 1#12 else low12 (readReg s f.rm) := by
  obtain ⟨hregs, -⟩ := onlyRegister_writeReg s f.rd (linkValue s)
  rw [hregs, apply_ite low12, low12_linkValue]

/-- Settles O19: the frame of the link's register write; the jump after it sets the pc alone. -/
theorem jalLinksThenJumps : Obligations.JalLinksThenJumps := by
  intro f s
  obtain ⟨hregs, -, hio, hcontrol, hmemories, hevents⟩ := onlyRegister_writeReg s f.rd (linkValue s)
  rw [linkValue_eq_ofNat] at hregs
  exact ⟨_, rfl, hregs, low12_readReg_linked f s, rfl, hio, hcontrol, hmemories, hevents⟩

end Sys2Proof.Machine

/-! PROOFS. Worked encodings, each as the word of its instruction (R103). -/

namespace Sys2Proof

/-- A word is decoded by encoding the instruction it should be (R102). -/
theorem decode_of_encode_eq {w : InstrWord} {i : Instr} (hword : encode i = w) (hwf : i.wf = true) :
    decode w = .ok i := by
  rw [← hword]
  exact decodeReadsBackEncode i hwf

/-- Settles O4: each word is the encoding of the well-formed instruction beside it. -/
theorem workedEncodingsDecode : Obligations.WorkedEncodingsDecode :=
  ⟨decode_of_encode_eq (by decide) (by decide), decode_of_encode_eq (by decide) (by decide),
    decode_of_encode_eq (by decide) (by decide), decode_of_encode_eq (by decide) (by decide),
    decode_of_encode_eq (by decide) (by decide), decode_of_encode_eq (by decide) (by decide)⟩

end Sys2Proof

/-! PROOFS. Reset and launch. What the two register banks read at reset, and the two invariants at a launch, of which
reset is the one with the default parameters and empty images (R270, R272). -/

namespace Sys2Proof.Machine

/-- A register reads 0 in a file of zeros, R0 like the others (R270, D13). -/
theorem readReg_reset (r : RegIdx) : readReg State.reset r = 0#32 := by
  rw [readReg, State.reset, Vector.getElem_replicate, ite_self]

theorem readIo_reset (n : IoIdx) : readIo State.reset n = 0#32 := by
  rw [readIo, State.reset, Vector.getElem_replicate]

/-- Settles O55: the two banks by the lemmas above, the memories empty, the rest as the reset table has it. -/
theorem resetIsAllZero : Obligations.ResetIsAllZero :=
  ⟨readReg_reset, readIo_reset, rfl, rfl, rfl, rfl, rfl, rfl, rfl, rfl,
    Memory.read_nil, Memory.read_nil, Memory.read_nil, Memory.read_nil⟩

/-- A launch with canonical images has the machine invariant: its framebuffer is empty and no transfer is in flight
(R270, R272). -/
theorem launch_invariant (cfg : Config) {imem : Memory 48} {dmem disk : Memory 32}
    (himem : Memory.wf imemLines imem = true) (hdmem : Memory.wf cfg.dmemWords dmem = true)
    (hdisk : Memory.wf diskWords disk = true) : Invariant (State.launch cfg imem dmem disk) where
  zeroSlot := Vector.getElem_replicate _
  imemCanonical := himem
  dmemCanonical := hdmem
  diskCanonical := hdisk
  fbCanonical := Memory.wf_nil fbCells
  pulseClear := readIo_reset irq2status
  transferWindow := nofun

/-- At a launch the schedule pointer and the cycle number are both 0 (R235, R270). -/
theorem launch_scheduleInvariant {cfg : Config} (hcfg : cfg.wf = true) (imem : Memory 48) (dmem disk : Memory 32) :
    ScheduleInvariant (State.launch cfg imem dmem disk) where
  ascending := hcfg
  past j _ hj _ := absurd hj (Nat.not_lt_zero j)
  ahead _ e _ _ := Nat.zero_le e

/-- Settles O57: the two invariants of a launch. -/
theorem launchMeetsTheInvariants : Obligations.LaunchMeetsTheInvariants :=
  fun cfg imem dmem disk hcfg himem hdmem hdisk =>
    ⟨launch_invariant cfg himem hdmem hdisk, launch_scheduleInvariant hcfg imem dmem disk⟩

/-- Settles O56: reset is the launch with the default parameters and nothing loaded. -/
theorem invariantHoldsAtReset : Obligations.InvariantHoldsAtReset :=
  launch_invariant Config.initial (Memory.wf_nil _) (Memory.wf_nil _) (Memory.wf_nil _)

end Sys2Proof.Machine
